-- ==== Sys2Proof/Word.lean ====
section
/-! DEFINITION. The data word of the engine (spec/00_scope.md R8: data path, accumulator, registers, operand bytes
and opcodes are all 8 bits wide). Numbers the spec treats as integers (the program counter, addresses, the cycle
counter) are `Int` or `Nat`, not bit vectors. -/

namespace Sys2Proof

/-- A byte, bit 7 the most significant (R8, R11). -/
abbrev Byte := BitVec 8

end Sys2Proof
end

