-- ==== Sys2Proof/Syntax.lean ====
section
/-! DEFINITION. The eleven instructions (spec/00_scope.md R4), as names and as instructions with their operand bytes.
One constructor of `Instr` per row of spec/opcode_table.json. -/

namespace Sys2Proof

/-- The eleven mnemonics, in the order of the source's ISA table (spec/00_scope.md R4; spec/30_encoding.md R70). -/
inductive Mnemonic where
  | set | put | get | add | addi | subi | nop | bz | bcs | jmpi | halt
deriving DecidableEq, Repr

/-- An instruction with its operand byte, if its format has one (spec/30_encoding.md R65 to R67).
The operand byte is kept as the raw byte: how it is read (immediate, register index, signed offset) is R69's. -/
inductive Instr where
  /-- SET: load the accumulator with an immediate (R120). -/
  | set (imm : Byte)
  /-- PUT: copy the accumulator to a register (R121). -/
  | put (reg : Byte)
  /-- GET: copy a register to the accumulator (R122). -/
  | get (reg : Byte)
  /-- ADD: add a register to the accumulator (R130). -/
  | add (reg : Byte)
  /-- ADDI: add an immediate to the accumulator (R131). -/
  | addi (imm : Byte)
  /-- SUBI: subtract an immediate from the accumulator (R132). -/
  | subi (imm : Byte)
  /-- NOP: refresh the Zero flag from the accumulator (R145). -/
  | nop
  /-- BZ: branch if Zero (R151). -/
  | bz (off : Byte)
  /-- BCS: branch if Carry set (R152). -/
  | bcs (off : Byte)
  /-- JMPI: jump, relative and unconditional (R153). -/
  | jmpi (off : Byte)
  /-- HALT: stop the engine (R165). -/
  | halt
deriving DecidableEq, Repr

end Sys2Proof
end

