-- ==== Sys2Proof/Config.lean ====
section
/-! DEFINITION. The parameters of the engine (spec/00_scope.md R9), as plain data. They are inputs of a run and do not
change during it (spec/10_state.md R39); State carries them, so a statement about every state is a statement about
every value of every parameter (notes/assumptions/1.md). -/

namespace Sys2Proof

/-- The parameter `OPC`: the opcode byte of each mnemonic (spec/30_encoding.md R70). It must be injective,
which `OpcodeMap.injective` says (Sys2Proof/WellFormed.lean). -/
structure OpcodeMap where
  opSet : Byte
  opPut : Byte
  opGet : Byte
  opAdd : Byte
  opAddi : Byte
  opSubi : Byte
  opNop : Byte
  opBz : Byte
  opBcs : Byte
  opJmpi : Byte
  opHalt : Byte
deriving DecidableEq, Repr

/-- `OPC(m)`. -/
def OpcodeMap.byte (o : OpcodeMap) : Mnemonic → Byte
  | .set => o.opSet
  | .put => o.opPut
  | .get => o.opGet
  | .add => o.opAdd
  | .addi => o.opAddi
  | .subi => o.opSubi
  | .nop => o.opNop
  | .bz => o.opBz
  | .bcs => o.opBcs
  | .jmpi => o.opJmpi
  | .halt => o.opHalt

/-- The reference assignment `REF` of R70. It is the spec's own choice, not the repository's encoding
(decision D1; notes/assumptions/2.md). -/
def OpcodeMap.ref : OpcodeMap where
  opSet := 0x01
  opPut := 0x02
  opGet := 0x03
  opAdd := 0x04
  opAddi := 0x05
  opSubi := 0x06
  opNop := 0x07
  opBz := 0x08
  opBcs := 0x09
  opJmpi := 0x0A
  opHalt := 0x0B

/-- The parameter `BRANCH_BASE`: what a branch offset is added to (spec/44_control.md R150, decision D2). -/
inductive BranchBase where
  /-- `AFTER`: the address just past the branch. -/
  | after
  /-- `SELF`: the branch's own address. -/
  | self
deriving DecidableEq, Repr

/-- The parameter `NOP_CARRY`: what NOP does to Carry (spec/43_status.md R145, decision D3). -/
inductive NopCarry where
  /-- `KEEP`: Carry unchanged. -/
  | keep
  /-- `CLEAR`: Carry becomes 0. -/
  | clear
deriving DecidableEq, Repr

/-- The parameter `SUBI_CARRY`: the polarity of SUBI's Carry (spec/42_arithmetic.md R132, decision D4). -/
inductive SubiCarry where
  /-- `BORROW`: Carry is 1 exactly when a borrow occurred. -/
  | borrow
  /-- `NOT_BORROW`: Carry is 1 exactly when no borrow occurred. -/
  | notBorrow
deriving DecidableEq, Repr

/-- The parameters of R9. -/
structure Config where
  /-- `NUM_REGS`, at least 4 (decision D5). -/
  numRegs : Nat
  /-- `OPC` (decision D1). -/
  opc : OpcodeMap
  branchBase : BranchBase
  nopCarry : NopCarry
  subiCarry : SubiCarry
  /-- `PC_WIDTH`, the number of bits of a hardware PC: `none` is the spec's OPEN. The engine's `pc` is an integer and
  no instruction reads this; decision D7 says when a hardware PC of this width agrees with it (`State.boardPc`). -/
  pcWidth : Option Nat
deriving DecidableEq, Repr

/-- The default of every parameter, as R9's table gives them. -/
def Config.defaults : Config where
  numRegs := 4
  opc := OpcodeMap.ref
  branchBase := .after
  nopCarry := .keep
  subiCarry := .borrow
  pcWidth := none

end Sys2Proof
end

