-- ==== Sys2Proof/WellFormed.lean ====
section
/-! DEFINITION. The checks on syntax and on parameters: a register operand names a register (spec/30_encoding.md R69,
R74), `OPC` is injective (R70), `NUM_REGS` is at least 4 (spec/10_state.md R22). -/

namespace Sys2Proof

/-- The operand of a `reg8` instruction is a register index, `< NUM_REGS`; every byte is legal for `imm8` and `off8`
(R69, R74). An instruction that fails this check still decodes and runs: it raises `InvalidRegisterIndex` (R171). -/
def Instr.wellFormed (numRegs : Nat) : Instr → Bool
  | .put r => decide (r.toNat < numRegs)
  | .get r => decide (r.toNat < numRegs)
  | .add r => decide (r.toNat < numRegs)
  | .set _ => true
  | .addi _ => true
  | .subi _ => true
  | .nop => true
  | .bz _ => true
  | .bcs _ => true
  | .jmpi _ => true
  | .halt => true

/-- The mnemonics in the order of the source's ISA table (R70). -/
def Mnemonic.all : List Mnemonic :=
  [.set, .put, .get, .add, .addi, .subi, .nop, .bz, .bcs, .jmpi, .halt]

/-- Two mnemonics never share an opcode byte (R70). -/
def OpcodeMap.injective (o : OpcodeMap) : Bool :=
  decide ((Mnemonic.all.map o.byte).Nodup)

/-- The parameters R9 admits. -/
def Config.wellFormed (cfg : Config) : Bool :=
  decide (4 ≤ cfg.numRegs) && cfg.opc.injective

end Sys2Proof
end

