-- ==== Sys2Proof/Decode.lean ====
section
/-! DEFINITION. The instruction decoder (spec/30_encoding.md R65 to R75) and, after it, the encoder. The opcode map
is an argument of both (R89). -/

namespace Sys2Proof

/-- How an operand byte is read (R69). -/
inductive OperandKind where
  | imm8 | reg8 | off8
deriving DecidableEq, Repr

/-- The operand shape of each mnemonic; `none` is format F1, `some` is format F2 (R66, R67). -/
def Mnemonic.operandKind : Mnemonic → Option OperandKind
  | .set => some .imm8
  | .put => some .reg8
  | .get => some .reg8
  | .add => some .reg8
  | .addi => some .imm8
  | .subi => some .imm8
  | .nop => none
  | .bz => some .off8
  | .bcs => some .off8
  | .jmpi => some .off8
  | .halt => none

/-- The length of an instruction in bytes, a function of its mnemonic alone (R67, R68). -/
def Mnemonic.width (m : Mnemonic) : Nat :=
  if m.operandKind.isSome then 2 else 1

/-- The mnemonic of an instruction. -/
def Instr.mnemonic : Instr → Mnemonic
  | .set _ => .set
  | .put _ => .put
  | .get _ => .get
  | .add _ => .add
  | .addi _ => .addi
  | .subi _ => .subi
  | .nop => .nop
  | .bz _ => .bz
  | .bcs _ => .bcs
  | .jmpi _ => .jmpi
  | .halt => .halt

/-- The bytes of an instruction after its opcode byte: its operand byte, or none (R66). -/
def Instr.operandBytes : Instr → List Byte
  | .set b => [b]
  | .put b => [b]
  | .get b => [b]
  | .add b => [b]
  | .addi b => [b]
  | .subi b => [b]
  | .nop => []
  | .bz b => [b]
  | .bcs b => [b]
  | .jmpi b => [b]
  | .halt => []

/-- The width of an instruction: its mnemonic's. -/
def Instr.width (i : Instr) : Nat := i.mnemonic.width

/-- The instruction of mnemonic `m` with operand byte `b`; an F1 instruction has no operand and ignores `b` (R66). -/
def Mnemonic.instr (m : Mnemonic) (b : Byte) : Instr :=
  match m with
  | .set => .set b
  | .put => .put b
  | .get => .get b
  | .add => .add b
  | .addi => .addi b
  | .subi => .subi b
  | .nop => .nop
  | .bz => .bz b
  | .bcs => .bcs b
  | .jmpi => .jmpi b
  | .halt => .halt

/-- The mnemonic whose opcode byte is `op`, if there is one: all 8 bits decide (R71). For an injective map there is
at most one; for a map that is not injective, which R70 rules out, the first in table order is taken. -/
def decodeOpcode (o : OpcodeMap) (op : Byte) : Option Mnemonic :=
  Mnemonic.all.find? fun m => o.byte m == op

/-- Why the decoder refuses some bytes. -/
inductive DecodeError where
  /-- There is no opcode byte. -/
  | noOpcode
  /-- The opcode byte is no mnemonic's (R73). -/
  | invalidOpcode (op : Byte)
  /-- The opcode byte is that of a two-byte instruction and no byte follows it (R105). -/
  | noOperand (m : Mnemonic)
deriving DecidableEq, Repr

/-- Decode the first instruction of a byte sequence: the instruction and the bytes after it. Opcode byte first, then
the operand byte if the mnemonic has one (R65, R66, R71). -/
def decode (o : OpcodeMap) : List Byte → Except DecodeError (Instr × List Byte)
  | [] => .error .noOpcode
  | op :: rest =>
    match decodeOpcode o op with
    | none => .error (.invalidOpcode op)
    | some m =>
      match m.operandKind, rest with
      | none, _ => .ok (m.instr 0, rest)
      | some _, [] => .error (.noOperand m)
      | some _, b :: rest' => .ok (m.instr b, rest')

/-- The bytes of an instruction: `OPC(m)`, then the operand byte if it has one (R66, R80). -/
def encode (o : OpcodeMap) (i : Instr) : List Byte :=
  o.byte i.mnemonic :: i.operandBytes

/-- The bytes of a sequence of instructions, in program order, with no header (R46, R81). -/
def encodeAll (o : OpcodeMap) (is : List Instr) : List Byte :=
  is.flatMap (encode o)

/-- The bytes, in memory order, of an instruction given as a number the way spec/opcode_table.json numbers it: the
table's match and mask take byte 0 (the opcode, at the lower address) as the MOST significant byte of the row's bits
(notes/assumptions/16.md). Zero bytes fill up to the longest instruction, two bytes. -/
def tableBytes (nbits w : Nat) : List Byte :=
  (List.range (nbits / 8)).map (fun k => BitVec.ofNat 8 (w >>> (nbits - 8 * (k + 1))))
    ++ List.replicate (2 - nbits / 8) 0

/-- The instruction the decoder reads from a table word, under the table's own opcode bytes `REF`. -/
def decodeTableWord (nbits w : Nat) : Option Instr :=
  match decode OpcodeMap.ref (tableBytes nbits w) with
  | .ok (i, _) => some i
  | .error _ => none

end Sys2Proof
end

