-- ==== Sys2Proof/Machine/State.lean ====
section
/-! DEFINITION. The architectural state (spec/10_state.md), the reasons a step can stop, and reset. -/

namespace Sys2Proof.Machine

/-- The kinds of fault the engine raises (spec/60_exceptions.md R170). A fault is an event of the machine: it sets
the termination record (`Termination.fault`) and is a next state of the model (notes/assumptions/10.md). -/
inductive FaultKind where
  /-- The opcode byte is no mnemonic's (check 2 of R103). -/
  | invalidOpcode
  /-- A fetch outside the image (checks 1 and 3 of R103). -/
  | pcOutOfBounds
  /-- A register operand byte not below `NUM_REGS` (check 4 of R103). -/
  | invalidRegisterIndex
deriving DecidableEq, Repr

/-- What the termination record holds once a run has ended (R36). -/
inductive Termination where
  | halted
  | cycleLimitReached
  /-- `Fault`: the pc at the start of the faulting step and the kind (R172). -/
  | fault (pc : Int) (kind : FaultKind)
deriving DecidableEq, Repr

/-- Instruction memory: the cells of the binary image, an address and its byte (spec/20_memory.md R45). Its canonical
form is `Memory.wf`: the addresses are 0, 1, …, N-1 in that order. -/
abbrev Memory := List Host.Cell

/-- The state of a run: the inputs of the run, which no step changes (R39), and the architectural state. -/
structure State where
  /-- The configuration parameters (spec/00_scope.md R9). -/
  cfg : Config
  /-- The binary image in instruction memory (R10, R45). -/
  image : Memory
  /-- The cycle budget `max_cycles` (R10). -/
  maxCycles : Nat
  /-- `ACC`, the accumulator (R21). -/
  acc : Byte
  /-- `R[0]` .. `R[NUM_REGS-1]`, the register file (R22). -/
  regs : List Byte
  /-- `Z`, the Zero flag (R29). -/
  z : Bool
  /-- `C`, the Carry flag (R30). -/
  c : Bool
  /-- `pc`, the program counter, an integer with no width and no wrap-around (R25). -/
  pc : Int
  /-- `CYCLES`, the cycle counter (R35). -/
  cycles : Nat
  /-- `HALTED` (R34). -/
  halted : Bool
  /-- The termination record, empty while the run goes on (R36). -/
  termination : Option Termination
deriving DecidableEq, Repr

/-- What stops the MODEL. None of these is a fault of the engine (those are `FaultKind`). Both constructors are raised
only in states that break `State.wf`, which no run reaches (notes/assumptions/13.md), and both are safe: the model
stops where the spec describes no state at all. -/
inductive Fault where
  /-- Raised by an instruction fetch at an address `a` with `0 ≤ a < N` for which the image lists no byte: the image is
  not in canonical form. Safe. -/
  | imageHole (a : Int)
  /-- Raised by PUT, GET and ADD with an index `i < NUM_REGS` for which the register file holds no register: the
  register file is shorter than `NUM_REGS`. Safe. -/
  | registerFileShort (i : Nat)
deriving DecidableEq, Repr

/-- Why the model gives an instruction no meaning. -/
inductive Refusal where
  /-- Raised by an arm of `exec` whose instruction has no meaning yet. No arm of this model answers it. Safe. -/
  | notModelled (mnemonic : String)
deriving DecidableEq, Repr

/-- The answer of a step or of an instruction's meaning. -/
abbrev Result := Host.Outcome State Fault Refusal

/-- The next state of an answer, if it is one. -/
def nextOf : Result → Option State
  | .next s => some s
  | .fault _ => none
  | .refused _ => none

/-- The state at the start of a run: all architectural state zero or empty, the inputs of the run as given
(spec/10_state.md R40; spec/70_reset_and_hazards.md R195). -/
def State.fresh (cfg : Config) (image : Memory) (maxCycles : Nat) : State where
  cfg := cfg
  image := image
  maxCycles := maxCycles
  acc := 0
  regs := List.replicate cfg.numRegs 0
  z := false
  c := false
  pc := 0
  cycles := 0
  halted := false
  termination := none

/-- The machine right after reset, with the default parameters (R9) and nothing launched: no image and no cycle budget
(notes/assumptions/12.md). -/
def State.reset : State := State.fresh Config.defaults [] 0

end Sys2Proof.Machine
end

