-- ==== Sys2Proof/Machine/Operands.lean ====
section
/-! DEFINITION. The operand forms (spec/30_encoding.md R69) and the branch target computed from one
(spec/44_control.md R150). -/

namespace Sys2Proof.Machine

/-- `zext_8`: the byte as an unsigned integer, 0..255 (spec/00_scope.md R12). -/
def zext8 (v : Byte) : Nat := v.toNat

/-- `sext_8`: the byte as a two's complement integer, -128..127 (R12). -/
def sext8 (v : Byte) : Int :=
  if v.toNat < 128 then (v.toNat : Int) else (v.toNat : Int) - 256

/-- What a branch offset is added to, for a branch at `p` whose next instruction is at `next` (R150). -/
def branchBase (cfg : Config) (p next : Int) : Int :=
  match cfg.branchBase with
  | .after => next
  | .self => p

/-- The target of a branch or jump at `p`, on integers, with no wrap (R150). -/
def branchTarget (cfg : Config) (p next : Int) (off : Byte) : Int :=
  branchBase cfg p next + sext8 off

end Sys2Proof.Machine
end

