-- ==== Sys2Proof/Machine/Flags.lean ====
section
/-! DEFINITION. The ALU (spec/42_arithmetic.md R129) and the computation of the two flags (spec/10_state.md R29, R30). -/

namespace Sys2Proof.Machine

/-- `alu_add`: the sum modulo 256, and whether the unsigned sum reaches 256. There is no carry input (R129). -/
def aluAdd (a x : Byte) : Byte × Bool :=
  let s := zext8 a + zext8 x
  (BitVec.ofNat 8 (s % 256), decide (256 ≤ s))

/-- `alu_sub`: the difference modulo 256, and whether a borrow occurs (R129). -/
def aluSub (a x : Byte) : Byte × Bool :=
  let d := (zext8 a : Int) - (zext8 x : Int)
  (BitVec.ofInt 8 (d % 256), decide (zext8 a < zext8 x))

/-- Zero: whether a result is 0 (R29). -/
def zeroFlag (r : Byte) : Bool := decide (r = 0)

/-- SUBI's Carry from the borrow, by the parameter `SUBI_CARRY` (R132). -/
def subiCarryFlag (p : SubiCarry) (borrow : Bool) : Bool :=
  match p with
  | .borrow => borrow
  | .notBorrow => !borrow

/-- NOP's Carry from the old Carry, by the parameter `NOP_CARRY` (spec/43_status.md R145). -/
def nopCarryFlag (p : NopCarry) (c : Bool) : Bool :=
  match p with
  | .keep => c
  | .clear => false

end Sys2Proof.Machine
end

