-- ==== Sys2Proof/Machine/Ops.lean ====
section
/-! DEFINITION. The named operations over instruction memory, registers and flags; raising a fault; the end of a run;
the fetch. Every meaning is built from these. -/

namespace Sys2Proof.Machine

/-! ### Instruction memory -/

/-- The canonical form of an image: its addresses are exactly 0, 1, …, N-1 in rising order (spec/20_memory.md R45). -/
def Memory.wf (m : Memory) : Bool := decide (m.map Prod.fst = List.range m.length)

/-- What an address that the image does not list holds: no byte. The image is all there is (R45, R53). -/
def Memory.unlisted : Option Byte := none

/-- The byte at an address. -/
def Memory.read (m : Memory) (a : Nat) : Option Byte :=
  match m.lookup a with
  | some b => some b
  | none => Memory.unlisted

/-- The image that holds a byte sequence: byte offset `k` at address `k` (R45, R46). -/
def Memory.ofBytes (bs : List Byte) : Memory := (List.range bs.length).zip bs

/-- The bytes of an image, in address order. -/
def Memory.bytes (m : Memory) : List Byte := m.map Prod.snd

/-- The image with `new` at addresses `a, a+1, …`, zero bytes filling any gap before `a`. No instruction does this
(R51): it stands for the launch that loads an image (notes/assumptions/12.md). -/
def Memory.store (m : Memory) (a : Nat) (new : List Byte) : Memory :=
  let old := m.bytes ++ List.replicate (a - m.length) 0
  Memory.ofBytes (old.take a ++ new ++ old.drop (a + new.length))

/-! ### State updates -/

/-- `ACC <- v` (spec/00_scope.md R13). -/
def State.setAcc (s : State) (v : Byte) : State := { s with acc := v }

/-- `Z <- z`, `C <- c` (R13). -/
def State.setFlags (s : State) (z c : Bool) : State := { s with z := z, c := c }

/-- `R[r] <- v` (R13). -/
def State.setReg (s : State) (r : Byte) (v : Byte) : State := { s with regs := s.regs.set r.toNat v }

/-- `HALTED <- true` (R13). -/
def State.setHalted (s : State) : State := { s with halted := true }

/-- The end of a step that completes: `pc` is written once, and `CYCLES <- CYCLES + 1` (spec/10_state.md R26;
spec/40_cycle.md R107). -/
def State.advance (s : State) (target : Int) : State := { s with pc := target, cycles := s.cycles + 1 }

/-- The end of the run: the termination record is set (spec/10_state.md R36). -/
def State.ended (s : State) (t : Termination) : State := { s with termination := some t }

/-- The local next-PC: the address just past the instruction at `pc` (R38; spec/40_cycle.md R106). -/
def State.nextPc (s : State) (m : Mnemonic) : Int := s.pc + (m.width : Int)

/-! ### Faults -/

/-- `raise Fault(kind)`, the one operation that takes a fault: the run ends with the record of the kind and of `pc` as
it is at the start of the step; nothing else is written, no handler runs, `CYCLES` is not incremented
(spec/00_scope.md R15; spec/40_cycle.md R107, R108; spec/60_exceptions.md R172, R175). There is no return from it
(R176). -/
def State.raise (s : State) (kind : FaultKind) : Result := .next (s.ended (.fault s.pc kind))

/-- The numeric code of a fault kind (R170, decision D20). -/
def FaultKind.code : FaultKind → Nat
  | .invalidOpcode => 1
  | .pcOutOfBounds => 2
  | .invalidRegisterIndex => 3

/-! ### Reads that can fail -/

/-- `MemRead(a, 1)`, going on with the byte read: `PCOutOfBounds` outside 0..N-1 (spec/20_memory.md R48). -/
def State.memRead (s : State) (a : Int) (k : Byte → Result) : Result :=
  if a < 0 ∨ (s.image.length : Int) ≤ a then s.raise .pcOutOfBounds
  else
    match s.image.read a.toNat with
    | some b => k b
    | none => .fault (.imageHole a)

/-- The register a `reg8` operand byte selects, going on with its value: `InvalidRegisterIndex` for a byte not below
`NUM_REGS` (spec/10_state.md R23; spec/60_exceptions.md R171). -/
def State.withReg (s : State) (r : Byte) (k : Byte → Result) : Result :=
  if s.cfg.numRegs ≤ zext8 r then s.raise .invalidRegisterIndex
  else
    match s.regs[zext8 r]? with
    | some v => k v
    | none => .fault (.registerFileShort (zext8 r))

/-! ### Fetch -/

/-- The fetch and decode of the instruction at `pc`, going on with the instruction. The checks come in the order of
R103: opcode fetch bounds, decode, operand fetch bounds. An F1 instruction reads no second byte (R102, R104, R105). -/
def State.fetch (s : State) (k : Instr → Result) : Result :=
  s.memRead s.pc fun op =>
    match decodeOpcode s.cfg.opc op with
    | none => s.raise .invalidOpcode
    | some m =>
      match m.operandKind with
      | none => k (m.instr 0)
      | some _ => s.memRead (s.pc + 1) fun b => k (m.instr b)

/-! ### When the engine steps -/

/-- Why the engine cannot take a step, `none` if it can: halted, or out of budget; `Halted` wins when both hold
(spec/40_cycle.md R100, R101). -/
def State.endReason (s : State) : Option Termination :=
  if s.halted then some .halted
  else if s.maxCycles ≤ s.cycles then some .cycleLimitReached
  else none

/-! ### Launch and outputs -/

/-- The start of a run: reset, with the launch inputs (spec/00_scope.md R10; spec/70_reset_and_hazards.md R195). -/
def State.launch (cfg : Config) (bytes : List Byte) (maxCycles : Nat) : State :=
  State.fresh cfg (Memory.ofBytes bytes) maxCycles

/-- A state like `s` in which the engine can step and `code` is what it fetches next: the image holds `code` at `pc`,
the budget allows one more cycle, the run has not ended, and the opcode map is `REF`, the one the table's words are
written in. What is already so is left alone. -/
def State.placeCode (s : State) (code : List Byte) : State :=
  let a := s.pc.toNat
  { s with
    cfg := { s.cfg with opc := OpcodeMap.ref }
    image := s.image.store a code
    pc := (a : Int)
    maxCycles := max s.maxCycles (s.cycles + 1)
    halted := false
    termination := none }

/-- The final state a run reports (spec/10_state.md R20). -/
structure FinalState where
  acc : Byte
  regs : List Byte
  z : Bool
  c : Bool
  pc : Int
  cycles : Nat
deriving DecidableEq, Repr

/-- The part of a state that a run reports at its end. -/
def State.finalState (s : State) : FinalState where
  acc := s.acc
  regs := s.regs
  z := s.z
  c := s.c
  pc := s.pc
  cycles := s.cycles

/-- The outputs of a run, once it has ended: the final state and the termination reason (R20). -/
def State.outputs (s : State) : Option (FinalState × Termination) :=
  s.termination.map fun t => (s.finalState, t)

/-- What a hardware PC of `PC_WIDTH` bits that wraps would hold; `none` while the width is OPEN (decision D7). -/
def State.boardPc (s : State) : Option Nat :=
  s.cfg.pcWidth.map fun w => (s.pc % (2 ^ w : Int)).toNat

/-! ### The invariant of a run -/

/-- The termination record agrees with the rest of the state (spec/10_state.md R36; spec/40_cycle.md R101, R108). -/
def State.recordAgrees (s : State) : Bool :=
  match s.termination with
  | none => true
  | some .halted => s.halted
  | some .cycleLimitReached => !s.halted && s.cycles == s.maxCycles
  | some (.fault p _) => !s.halted && decide (s.cycles < s.maxCycles) && p == s.pc

/-- What holds of every state of a run: admitted parameters (R9), an image in canonical form (spec/20_memory.md R45),
`NUM_REGS` registers (spec/10_state.md R22), `CYCLES` within the budget (R35), `pc` in -128 .. N+127 (R25), and a
termination record that agrees with the rest. -/
def State.wf (s : State) : Bool :=
  s.cfg.wellFormed && s.image.wf && decide (s.regs.length = s.cfg.numRegs)
    && decide (s.cycles ≤ s.maxCycles)
    && decide (-128 ≤ s.pc ∧ s.pc ≤ (s.image.length : Int) + 127)
    && s.recordAgrees

end Sys2Proof.Machine
end

