-- ==== Sys2Proof/Machine/Arithmetic.lean ====
section
/-! DEFINITION. The arithmetic instructions (spec/42_arithmetic.md). Each writes ACC, C and Z, always. -/

namespace Sys2Proof.Machine

/-- The writes that ADD, ADDI and SUBI share: `ACC <- r`, `C <- c`, `Z <- bool(r = 0)` (R130 to R132). -/
def State.setArith (s : State) (r : Byte) (c : Bool) : State :=
  (s.setAcc r).setFlags (zeroFlag r) c

/-- ADD: `ACC <- (ACC + R[b]) mod 256`, or `InvalidRegisterIndex` (R130). -/
def execAdd (reg : Byte) (s : State) : Result :=
  s.withReg reg fun x =>
    .next ((s.setArith (aluAdd s.acc x).1 (aluAdd s.acc x).2).advance (s.nextPc .add))

/-- ADDI: `ACC <- (ACC + b) mod 256` (R131). -/
def execAddi (imm : Byte) (s : State) : Result :=
  .next ((s.setArith (aluAdd s.acc imm).1 (aluAdd s.acc imm).2).advance (s.nextPc .addi))

/-- SUBI: `ACC <- (ACC - b) mod 256`, Carry by the polarity `SUBI_CARRY` (R132). -/
def execSubi (imm : Byte) (s : State) : Result :=
  .next ((s.setArith (aluSub s.acc imm).1 (subiCarryFlag s.cfg.subiCarry (aluSub s.acc imm).2)).advance
    (s.nextPc .subi))

end Sys2Proof.Machine
end

