-- ==== Sys2Proof/Machine/Control.lean ====
section
/-! DEFINITION. Control transfer (spec/44_control.md). A target outside the image is written without a fault (R154). -/

namespace Sys2Proof.Machine

/-- Where a branch of mnemonic `m` goes: the target of R150 if it is taken, else the next instruction. -/
def State.branchTo (s : State) (m : Mnemonic) (taken : Bool) (off : Byte) : Int :=
  if taken then branchTarget s.cfg s.pc (s.nextPc m) off else s.nextPc m

/-- BZ: branch if Z = 1 (R151). -/
def execBz (off : Byte) (s : State) : Result :=
  .next (s.advance (s.branchTo .bz s.z off))

/-- BCS: branch if C = 1 (R152). -/
def execBcs (off : Byte) (s : State) : Result :=
  .next (s.advance (s.branchTo .bcs s.c off))

/-- JMPI: jump, unconditionally (R153). -/
def execJmpi (off : Byte) (s : State) : Result :=
  .next (s.advance (s.branchTo .jmpi true off))

end Sys2Proof.Machine
end

