-- ==== Sys2Proof/Machine/Halt.lean ====
section
/-! DEFINITION. HALT (spec/45_halt.md). -/

namespace Sys2Proof.Machine

/-- HALT: `HALTED <- true`, and `pc` moves past it; the run then ends with `Halted` (R165; spec/40_cycle.md R101). -/
def execHalt (s : State) : Result :=
  .next (s.setHalted.advance (s.nextPc .halt))

end Sys2Proof.Machine
end

