-- ==== Sys2Proof/Machine/Status.lean ====
section
/-! DEFINITION. The status refresh instruction (spec/43_status.md). -/

namespace Sys2Proof.Machine

/-- NOP: `Z <- bool(ACC = 0)`; Carry by the parameter `NOP_CARRY` (R145). -/
def execNop (s : State) : Result :=
  .next ((s.setFlags (zeroFlag s.acc) (nopCarryFlag s.cfg.nopCarry s.c)).advance (s.nextPc .nop))

end Sys2Proof.Machine
end

