-- ==== Sys2Proof/Machine/Transfer.lean ====
section
/-! DEFINITION. The transfer instructions (spec/41_transfer.md). None of them writes a flag. -/

namespace Sys2Proof.Machine

/-- SET: `ACC <- zext_8(b)` (R120). -/
def execSet (imm : Byte) (s : State) : Result :=
  .next ((s.setAcc imm).advance (s.nextPc .set))

/-- PUT: `R[b] <- ACC`, or `InvalidRegisterIndex` (R121). -/
def execPut (reg : Byte) (s : State) : Result :=
  s.withReg reg fun _ => .next ((s.setReg reg s.acc).advance (s.nextPc .put))

/-- GET: `ACC <- R[b]`, or `InvalidRegisterIndex` (R122). -/
def execGet (reg : Byte) (s : State) : Result :=
  s.withReg reg fun v => .next ((s.setAcc v).advance (s.nextPc .get))

end Sys2Proof.Machine
end

