-- ==== Sys2Proof/Machine/Dispatch.lean ====
section
/-! DEFINITION. One arm per instruction: the execute rule of each mnemonic (spec/40_cycle.md R106). -/

namespace Sys2Proof.Machine

def exec (i : Instr) (s : State) : Host.Outcome State Fault Refusal :=
  match i with
  | .set imm => Sys2Proof.Machine.execSet imm s
  | .put reg => Sys2Proof.Machine.execPut reg s
  | .get reg => Sys2Proof.Machine.execGet reg s
  | .add reg => Sys2Proof.Machine.execAdd reg s
  | .addi imm => Sys2Proof.Machine.execAddi imm s
  | .subi imm => Sys2Proof.Machine.execSubi imm s
  | .nop => Sys2Proof.Machine.execNop s
  | .bz off => Sys2Proof.Machine.execBz off s
  | .bcs off => Sys2Proof.Machine.execBcs off s
  | .jmpi off => Sys2Proof.Machine.execJmpi off s
  | .halt => Sys2Proof.Machine.execHalt s

end Sys2Proof.Machine
end

