-- ==== Sys2Proof/Machine/Step.lean ====
section
/-! DEFINITION. One step of the model (spec/40_cycle.md). -/

namespace Sys2Proof.Machine

/-- One step. A run that has ended takes no further step: its state stays as it is (R36, R100). A run that cannot step
ends: the termination record is set (R101). Otherwise one cycle: fetch, decode, operand fetch, execute, count (R102 to
R107). A fault sets the termination record (R108). -/
def step (s : State) : Host.Outcome State Fault Refusal :=
  match s.termination with
  | some _ => .next s
  | none =>
    match s.endReason with
    | some t => .next (s.ended t)
    | none => s.fetch fun i => exec i s

/-- `s` with a table word's instruction stored where `step` fetches next, and able to run it
(notes/assumptions/12.md). -/
def State.withFetchWord (s : State) (nbits w : Nat) : State :=
  s.placeCode (tableBytes nbits w)

end Sys2Proof.Machine
end

