-- ==== Sys2Proof/Machine/Assembler.lean ====
section
/-! DEFINITION. The assembler, as the toolchain contract that fixes the operand encoding and the offset convention
(spec/00_scope.md R6; spec/30_encoding.md R76 to R83). It is not part of the block: no step uses it. A source text is a
list of characters. The readings the source leaves open are decision D21's and, where D21 is silent too, the model's
own: DESIGN CHOICE, each named in notes/assumptions/21.md. -/

namespace Sys2Proof.Machine

/-- The error kinds of R81. `other` is there for the parameter `ASM_MALFORMED_KIND`, the kind of a missing, extra or
malformed operand, which the source does not name and which may or may not be one of the five (decision D21). -/
inductive AsmErrorKind where
  | unknownMnemonic
  | duplicateLabel
  | undefinedLabel
  | operandOutOfRange
  | offsetOutOfRange
  | other (name : String)
deriving DecidableEq, Repr

/-- `AssemblyError`: the source line, counted from 1, and the kind (R81). -/
structure AsmError where
  line : Nat
  kind : AsmErrorKind
deriving DecidableEq, Repr

/-! ### Reading the text -/

/-- A piece of source text. -/
abbrev Text := List Char

/-- The lines of a text (R76). DESIGN CHOICE (notes/assumptions/21.md): the spec says 'line by line' and names no line
terminator; here a line feed alone ends a line, and the last line needs none. A carriage return ends no line: it is
white space, so a carriage return before a line feed is dropped with it. -/
def textLines : Text → List Text
  | [] => [[]]
  | ch :: rest =>
    match textLines rest with
    | [] => [[ch]]
    | line :: lines => if ch = '\n' then [] :: line :: lines else (ch :: line) :: lines

/-- White space inside a line. DESIGN CHOICE (notes/assumptions/21.md): R78 says 'whitespace' and names no character;
here it is the space, the tab and the carriage return. -/
def isBlankChar (ch : Char) : Bool := ch = ' ' || ch = '\t' || ch = '\r'

/-- The words of a line, separated by white space; `word` holds the word being read, last character first. -/
def lineWords (word : Text) : Text → List Text
  | [] => if word.isEmpty then [] else [word.reverse]
  | ch :: rest =>
    if isBlankChar ch then
      if word.isEmpty then lineWords [] rest else word.reverse :: lineWords [] rest
    else lineWords (ch :: word) rest

/-- A comment runs from `;` to the end of the line and is removed before anything else (R76). -/
def stripComment (line : Text) : Text := line.takeWhile fun ch => ch != ';'

/-- An identifier: a letter or `_`, then letters, digits or `_` (R77). DESIGN CHOICE (notes/assumptions/21.md): the
letters and digits are the ASCII ones. -/
def isIdent : Text → Bool
  | [] => false
  | ch :: rest => (ch.isAlpha || ch = '_') && rest.all fun d => d.isAlphanum || d = '_'

/-- What a line holds (R76): nothing, a label definition, or an instruction with its operand words. -/
inductive LineBody where
  | blank
  | label (name : Text)
  | instr (mnemonic : Text) (operands : List Text)
deriving DecidableEq, Repr

/-- The line is an instruction line. -/
def LineBody.isInstr : LineBody → Bool
  | .blank => false
  | .label _ => false
  | .instr _ _ => true

/-- A label definition is an identifier followed by `:`, on a line of its own; any other nonblank line is read as an
instruction line (R76 to R78). -/
def readLine (line : Text) : LineBody :=
  match lineWords [] (stripComment line) with
  | [] => .blank
  | [w] => if w.getLast? = some ':' && isIdent w.dropLast then .label w.dropLast else .instr w []
  | w :: ws => .instr w ws

/-- The spelling of each mnemonic, in capitals (R78). -/
def mnemonicText : Mnemonic → Text
  | .set => ['S', 'E', 'T']
  | .put => ['P', 'U', 'T']
  | .get => ['G', 'E', 'T']
  | .add => ['A', 'D', 'D']
  | .addi => ['A', 'D', 'D', 'I']
  | .subi => ['S', 'U', 'B', 'I']
  | .nop => ['N', 'O', 'P']
  | .bz => ['B', 'Z']
  | .bcs => ['B', 'C', 'S']
  | .jmpi => ['J', 'M', 'P', 'I']
  | .halt => ['H', 'A', 'L', 'T']

/-- The mnemonic a word spells, matched exactly (R78). -/
def readMnemonic (w : Text) : Option Mnemonic := Mnemonic.all.find? fun m => mnemonicText m == w

/-- A decimal natural number: one or more digits (R78). DESIGN CHOICE (notes/assumptions/21.md): leading zeros are
read, the spec neither allowing nor refusing them. -/
def readDecimal (w : Text) : Option Nat :=
  if w.isEmpty || !w.all Char.isDigit then none
  else some (w.foldl (fun n d => 10 * n + (d.toNat - '0'.toNat)) 0)

/-- A signed decimal number: an optional leading `-`, then digits. -/
def readSigned : Text → Option Int
  | '-' :: ds => (readDecimal ds).map fun n => -(n : Int)
  | w => (readDecimal w).map fun n => (n : Int)

/-! ### Operands -/

/-- The operand byte of an offset, if it is within -128..127: `offset mod 256` (R80). -/
def offsetByte (offset : Int) : Option Byte :=
  if offset < -128 ∨ 127 < offset then none else some (BitVec.ofInt 8 (offset % 256))

/-- `assemble_offset`: the operand byte with which an instruction at `p` of the given width reaches `target`. The base
follows `BRANCH_BASE`, as the engine's does (R80). -/
def assembleOffset (cfg : Config) (p width target : Int) : Option Byte :=
  offsetByte (target - branchBase cfg p (p + width))

/-- The labels of a program and their addresses. -/
abbrev Labels := List (Text × Nat)

/-- The operand byte a word stands for, for an instruction at `p` of the given width (R78, R80). -/
def readOperand (cfg : Config) (malformed : AsmErrorKind) (labels : Labels) (p width : Nat) (kind : OperandKind)
    (w : Text) : Except AsmErrorKind Byte :=
  match kind with
  | .imm8 =>
    match readDecimal w with
    | none => .error malformed
    | some n => if n ≤ 255 then .ok (BitVec.ofNat 8 n) else .error .operandOutOfRange
  | .reg8 =>
    match w with
    | 'R' :: ds =>
      match readDecimal ds with
      | none => .error malformed
      | some n => if n < cfg.numRegs ∧ n ≤ 255 then .ok (BitVec.ofNat 8 n) else .error .operandOutOfRange
    | _ => .error malformed
  | .off8 =>
    match readSigned w with
    | some offset => (offsetByte offset).elim (.error .offsetOutOfRange) .ok
    | none =>
      if isIdent w then
        match labels.lookup w with
        | none => .error .undefinedLabel
        | some target => (assembleOffset cfg p width target).elim (.error .offsetOutOfRange) .ok
      else .error malformed

/-- The instruction a line stands for: no operand word for F1, exactly one for F2 (R67, R78). -/
def readInstr (cfg : Config) (malformed : AsmErrorKind) (labels : Labels) (p : Nat) (m : Mnemonic) (ops : List Text) :
    Except AsmErrorKind Instr :=
  match m.operandKind, ops with
  | none, [] => .ok (m.instr 0)
  | some kind, [w] =>
    match readOperand cfg malformed labels p m.width kind w with
    | .ok b => .ok (m.instr b)
    | .error e => .error e
  | _, _ => .error malformed

/-! ### The two passes -/

/-- An instruction line after pass 1: its line number, its address, its mnemonic, its operand words. -/
structure Item where
  line : Nat
  addr : Nat
  mnemonic : Mnemonic
  operands : List Text
deriving DecidableEq, Repr

/-- The number of instruction lines among the first `k` lines: the number of the instruction that an instruction on line
`k` is, and of the next instruction after a label on line `k`, both counted from 0 (R77, R79). -/
def instrsBefore (lines : List LineBody) (k : Nat) : Nat := (lines.take k).countP LineBody.isInstr

/-- Pass 1 over the lines from number `n` on, the running PC being `p`: the instructions with their addresses, and the
labels. A label is bound to the running PC (R77, R79). -/
def passOne (n p : Nat) (labels : Labels) : List LineBody → Except AsmError (List Item × Labels)
  | [] => .ok ([], labels)
  | .blank :: rest => passOne (n + 1) p labels rest
  | .label name :: rest =>
    if (labels.lookup name).isSome then .error ⟨n, .duplicateLabel⟩
    else passOne (n + 1) p ((name, p) :: labels) rest
  | .instr w ops :: rest =>
    match readMnemonic w with
    | none => .error ⟨n, .unknownMnemonic⟩
    | some m =>
      match passOne (n + 1) (p + m.width) labels rest with
      | .error e => .error e
      | .ok (items, labels') => .ok (⟨n, p, m, ops⟩ :: items, labels')

/-- Pass 2: the instructions with their operand bytes; it stops at the first error (R80, R81). -/
def passTwo (cfg : Config) (malformed : AsmErrorKind) (labels : Labels) : List Item → Except AsmError (List Instr)
  | [] => .ok []
  | item :: rest =>
    match readInstr cfg malformed labels item.addr item.mnemonic item.operands with
    | .error kind => .error ⟨item.line, kind⟩
    | .ok i =>
      match passTwo cfg malformed labels rest with
      | .error e => .error e
      | .ok is => .ok (i :: is)

/-- The instructions of a source text. Pass 1 completes before pass 2 starts (R81). -/
def assembleInstrs (cfg : Config) (malformed : AsmErrorKind) (source : Text) : Except AsmError (List Instr) :=
  match passOne 1 0 [] ((textLines source).map readLine) with
  | .error e => .error e
  | .ok (items, labels) => passTwo cfg malformed labels items

/-- The assembler: the bytes of the instructions one after the other, with no header, or the first error and no bytes
(R81). `malformed` is the parameter `ASM_MALFORMED_KIND`. -/
def assemble (cfg : Config) (malformed : AsmErrorKind) (source : Text) : Except AsmError (List Byte) :=
  match assembleInstrs cfg malformed source with
  | .error e => .error e
  | .ok is => .ok (encodeAll cfg.opc is)

end Sys2Proof.Machine
end

