-- ==== Sys2Proof/Machine/RunLoop.lean ====
section
/-! DEFINITION. The block described a second time, from the outside: the decoder's control outputs (spec/30_encoding.md
R72), a datapath that obeys them, and the whole run as the loop of spec/40_cycle.md R109, from the launch inputs to the
reported outputs. `step` does not use this file; the obligations say that the two descriptions agree.
The datapath's 9-bit adder is this model's own choice (notes/assumptions/24.md). -/

namespace Sys2Proof.Machine

/-! ### The decoder's control outputs -/

/-- The column "ACC write" of R72's table. -/
inductive AccWrite where
  | none
  /-- `b` -/
  | operand
  /-- `R[b]` -/
  | register
  /-- `(ACC + x) mod 256`, `x` being the operand or the register. -/
  | sum
  /-- `(ACC - b) mod 256` -/
  | difference
deriving DecidableEq, Repr

/-- The column "Z write": no, from the ALU's result, or from ACC. -/
inductive ZeroWrite where
  | no | result | acc
deriving DecidableEq, Repr

/-- The column "C write": no, from the ALU, or only if `NOP_CARRY = CLEAR`. -/
inductive CarryWrite where
  | no | alu | ifClear
deriving DecidableEq, Repr

/-- The column "pc select". -/
inductive PcSelect where
  | next | targetIfZero | targetIfCarry | target
deriving DecidableEq, Repr

/-- One row of R72's table. -/
structure Control where
  width : Nat
  operand : Option OperandKind
  accWrite : AccWrite
  regWrite : Bool
  zeroWrite : ZeroWrite
  carryWrite : CarryWrite
  pcSelect : PcSelect
  halts : Bool
deriving DecidableEq, Repr

/-- R72's table, row by row. -/
def controlOf : Mnemonic → Control
  | .set => ⟨2, some .imm8, .operand, false, .no, .no, .next, false⟩
  | .put => ⟨2, some .reg8, .none, true, .no, .no, .next, false⟩
  | .get => ⟨2, some .reg8, .register, false, .no, .no, .next, false⟩
  | .add => ⟨2, some .reg8, .sum, false, .result, .alu, .next, false⟩
  | .addi => ⟨2, some .imm8, .sum, false, .result, .alu, .next, false⟩
  | .subi => ⟨2, some .imm8, .difference, false, .result, .alu, .next, false⟩
  | .nop => ⟨1, none, .none, false, .acc, .ifClear, .next, false⟩
  | .bz => ⟨2, some .off8, .none, false, .no, .no, .targetIfZero, false⟩
  | .bcs => ⟨2, some .off8, .none, false, .no, .no, .targetIfCarry, false⟩
  | .jmpi => ⟨2, some .off8, .none, false, .no, .no, .target, false⟩
  | .halt => ⟨1, none, .none, false, .no, .no, .next, true⟩

/-! ### The datapath -/

/-- The architectural state alone, without the inputs of the run. The register file is as long as `NUM_REGS`. -/
structure Engine where
  acc : Byte
  regs : List Byte
  z : Bool
  c : Bool
  pc : Int
  cycles : Nat
  halted : Bool
deriving DecidableEq, Repr

/-- The architectural state of a machine state. -/
def State.engine (s : State) : Engine where
  acc := s.acc
  regs := s.regs
  z := s.z
  c := s.c
  pc := s.pc
  cycles := s.cycles
  halted := s.halted

/-- The 9-bit sum of two bytes: bits 7..0 the sum modulo 256, bit 8 the carry out (R129). -/
def wideSum (a x : Byte) : BitVec 9 := a.setWidth 9 + x.setWidth 9

/-- The 9-bit difference of two bytes: bits 7..0 the difference modulo 256, bit 8 the borrow (R129). -/
def wideDifference (a x : Byte) : BitVec 9 := a.setWidth 9 - x.setWidth 9

/-- Obey one row of control outputs for the operand byte `b`: every read sees the state before the instruction and
every write takes effect at its end (spec/00_scope.md R13). The register port is the one check at execute (R171). -/
def Control.obey (ctl : Control) (cfg : Config) (b : Byte) (e : Engine) : Except FaultKind Engine :=
  let port : Option Byte := if ctl.operand = some .reg8 then e.regs[b.toNat]? else some b
  match port with
  | none => .error .invalidRegisterIndex
  | some x =>
    let wide := if ctl.accWrite = .difference then wideDifference e.acc x else wideSum e.acc x
    let result := wide.setWidth 8
    let aluCarry :=
      if ctl.accWrite = .difference && decide (cfg.subiCarry = .notBorrow) then !wide.getLsbD 8 else wide.getLsbD 8
    let next := e.pc + (ctl.width : Int)
    let target := branchTarget cfg e.pc next b
    .ok
      { acc :=
          match ctl.accWrite with
          | .none => e.acc
          | .operand => b
          | .register => x
          | .sum => result
          | .difference => result
        regs := if ctl.regWrite then e.regs.set b.toNat e.acc else e.regs
        z :=
          match ctl.zeroWrite with
          | .no => e.z
          | .result => decide (result = 0)
          | .acc => decide (e.acc = 0)
        c :=
          match ctl.carryWrite with
          | .no => e.c
          | .alu => aluCarry
          | .ifClear => if cfg.nopCarry = .clear then false else e.c
        pc :=
          match ctl.pcSelect with
          | .next => next
          | .targetIfZero => if e.z then target else next
          | .targetIfCarry => if e.c then target else next
          | .target => target
        cycles := e.cycles + 1
        halted := if ctl.halts then true else e.halted }

/-! ### The run -/

/-- `MemRead(a, 1)` of an image given as its bytes (spec/20_memory.md R48). -/
def imageRead (image : List Byte) (a : Int) : Except FaultKind Byte :=
  if a < 0 then .error .pcOutOfBounds
  else
    match image[a.toNat]? with
    | some b => .ok b
    | none => .error .pcOutOfBounds

/-- The body of R109's loop: fetch, decode, operand fetch, execute, count. -/
def Engine.cycle (cfg : Config) (image : List Byte) (e : Engine) : Except FaultKind Engine :=
  match imageRead image e.pc with
  | .error k => .error k
  | .ok op =>
    match decodeOpcode cfg.opc op with
    | none => .error .invalidOpcode
    | some m =>
      if (controlOf m).width = 2 then
        match imageRead image (e.pc + 1) with
        | .error k => .error k
        | .ok b => (controlOf m).obey cfg b e
      else (controlOf m).obey cfg 0 e

/-- What a run reports of the architectural state (spec/10_state.md R20). -/
def Engine.finalState (e : Engine) : FinalState where
  acc := e.acc
  regs := e.regs
  z := e.z
  c := e.c
  pc := e.pc
  cycles := e.cycles

/-- The architectural state at the start of a run (R40). -/
def Engine.reset (cfg : Config) : Engine where
  acc := 0
  regs := List.replicate cfg.numRegs 0
  z := false
  c := false
  pc := 0
  cycles := 0
  halted := false

/-- R109's loop with `budget` cycles left, which is `max_cycles - CYCLES`: each iteration counts one. -/
def Engine.loop (cfg : Config) (image : List Byte) : Nat → Engine → FinalState × Termination
  | budget, e =>
    if e.halted then (e.finalState, .halted)
    else
      match budget with
      | 0 => (e.finalState, .cycleLimitReached)
      | left + 1 =>
        match e.cycle cfg image with
        | .error kind => (e.finalState, .fault e.pc kind)
        | .ok e' => Engine.loop cfg image left e'

/-- `run(image, max_cycles)` (R10, R109). -/
def runImage (cfg : Config) (image : List Byte) (maxCycles : Nat) : FinalState × Termination :=
  Engine.loop cfg image maxCycles (Engine.reset cfg)

end Sys2Proof.Machine
end

