-- ==== Sys2Proof/Safety.lean ====
section
/-! DEFINITION. What claims about runs are stated in: the state a run is in after some steps, and which ends of a run
are no fault (spec/60_exceptions.md R170, R177). -/

namespace Sys2Proof

open Sys2Proof.Machine

/-- `n` steps, stopping at the first stop of the model: the host's run of `core` (`runFor_eq_core_run`). -/
def runFor : Nat → State → Result
  | 0, s => .next s
  | n + 1, s =>
    match step s with
    | .next t => runFor n t
    | .fault r => .fault r
    | .refused r => .refused r

/-- `t` is the state after `n` steps from `s`. -/
def RunsTo (n : Nat) (s t : State) : Prop := runFor n s = .next t

/-- `t` can be reached from `s`. -/
def Reaches (s t : State) : Prop := ∃ n, RunsTo n s t

/-- The engine takes a step exactly when the record is empty, `HALTED` is false and `CYCLES < max_cycles`
(spec/40_cycle.md R100). -/
def CanStep (s : State) : Prop := s.termination = none ∧ s.halted = false ∧ s.cycles < s.maxCycles

/-- The state `s` with another opcode map and the program `is` encoded in it (spec/30_encoding.md R89). -/
def reencode (o : OpcodeMap) (is : List Instr) (s : State) : State :=
  { s with cfg := { s.cfg with opc := o }, image := Memory.ofBytes (encodeAll o is) }

/-- `pc` is an instruction boundary of the program `is`: the address of one of its instructions, or its end (R89). -/
def AtBoundary (is : List Instr) (pc : Int) : Prop :=
  ∃ k, k ≤ is.length ∧ pc = (((is.take k).map Instr.width).sum : Nat)

/-- The ends of a run that are no fault: `Halted` and `CycleLimitReached` (R177). -/
def normalEnd : Termination → Bool
  | .halted => true
  | .cycleLimitReached => true
  | .fault _ _ => false

/-- A run of `image` with a budget is safe: it ends, and not by a fault. -/
def SafeRun (cfg : Config) (image : List Byte) (maxCycles : Nat) : Prop :=
  ∃ t reason, Reaches (State.launch cfg image maxCycles) t ∧ t.termination = some reason ∧ normalEnd reason = true

end Sys2Proof
end

