-- ==== Sys2Proof/Certificates/Slice0/Obligations.lean ====
section
/-! DEFINITION. The statements for the provers. Each docstring names the rules of spec/ it formalises. The statements
quantify over every state, and so over every value of the parameters NUM_REGS, OPC, BRANCH_BASE, NOP_CARRY and
SUBI_CARRY (spec/00_scope.md R9), which State carries. -/

open Sys2Proof Sys2Proof.Machine

/-! ### Encoding and decoder -/

/-- For an injective opcode map, decoding the bytes of any instruction, whatever bytes follow, gives that instruction
and those bytes; and the encoding is as long as the instruction's width (spec/30_encoding.md R66, R67, R71). -/
def Obligations.DecodeOfEncodeIsTheInstruction : Prop :=
  ∀ (o : OpcodeMap) (i : Instr) (rest : List Byte), o.injective = true →
    decode o (encode o i ++ rest) = .ok (i, rest) ∧ (encode o i).length = i.width

/-- Whatever decodes is the encoding of what it decodes to, so no bit of an instruction is ignored
(spec/30_encoding.md R66, R71: "there are no don't-care bits"). -/
def Obligations.EncodeOfDecodeIsTheBytes : Prop :=
  ∀ (o : OpcodeMap) (bytes rest : List Byte) (i : Instr),
    decode o bytes = .ok (i, rest) → encode o i ++ rest = bytes

/-- The decoder answers the one mnemonic whose opcode byte it reads, and none exactly if there is no such mnemonic, in
which case it refuses the bytes as an invalid opcode (spec/30_encoding.md R71). -/
def Obligations.DecoderInvertsTheOpcodeMap : Prop :=
  ∀ (o : OpcodeMap) (op : Byte), o.injective = true →
    (∀ m : Mnemonic, decodeOpcode o op = some m ↔ o.byte m = op) ∧
    (decodeOpcode o op = none ↔ ∀ m : Mnemonic, o.byte m ≠ op) ∧
    ((∀ m : Mnemonic, o.byte m ≠ op) → ∀ rest, decode o (op :: rest) = .error (.invalidOpcode op))

/-- Under `REF` the bytes that are no opcode are 0x00 and 0x0C..0xFF, 245 values (spec/30_encoding.md R70, R73). -/
def Obligations.IllegalOpcodesUnderRef : Prop :=
  OpcodeMap.ref.injective = true ∧
  (∀ op : Byte, decodeOpcode OpcodeMap.ref op = none ↔ op = 0 ∨ 0x0C ≤ op.toNat) ∧
  (List.range 256).countP (fun n => (decodeOpcode OpcodeMap.ref (BitVec.ofNat 8 n)).isNone) = 245

/-- Two decodings that start at the same opcode byte have the same width, and each consumes exactly that many bytes:
the length is a function of the opcode byte alone (spec/30_encoding.md R68). -/
def Obligations.LengthIsAFunctionOfTheOpcode : Prop :=
  ∀ (o : OpcodeMap) (op : Byte) (bytes bytes' rest rest' : List Byte) (i i' : Instr),
    decode o (op :: bytes) = .ok (i, rest) → decode o (op :: bytes') = .ok (i', rest') →
    i.width = i'.width ∧ (op :: bytes).length = i.width + rest.length

/-- A few words of the opcode table, written out from R66 and R70, decode to the instruction they stand for. -/
def Obligations.WordsOfEveryFamilyDecode : Prop :=
  decode OpcodeMap.ref [0b00000001, 0b11001000] = .ok (.set 200, []) ∧
  decode OpcodeMap.ref [0b00000100, 0b00000011] = .ok (.add 3, []) ∧
  decode OpcodeMap.ref [0b00000111, 0b11111111] = .ok (.nop, [0xFF]) ∧
  decode OpcodeMap.ref [0b00001010, 0b11101101] = .ok (.jmpi 0xED, []) ∧
  decode OpcodeMap.ref [0b00001011] = .ok (.halt, [])

/-- A word of the opcode table placed by `withFetchWord` is what the next step runs, from any state whatever. This is
about the model's own loader (log entry 12), under the table's opcode bytes (log entries 2 and 16). -/
def Obligations.PlacedTableWordIsTheNextInstruction : Prop :=
  ∀ (s : State) (nbits w : Nat) (i : Instr),
    decodeTableWord nbits w = some i → step (s.withFetchWord nbits w) = exec i (s.withFetchWord nbits w)

/-! ### Reset and the start of a run -/

/-- At the start of every run all state is zero or empty, and no register is unreadable: a GET of any register of the
file completes with 0 (spec/10_state.md R40; op, b and next, which R40 gives no value, are values inside a step and not
State, log entry 23). -/
def Obligations.EveryRunStartsFresh : Prop :=
  ∀ (cfg : Config) (bytes : List Byte) (maxCycles : Nat),
    let s := State.launch cfg bytes maxCycles
    s.acc = 0 ∧ s.regs.length = cfg.numRegs ∧ (∀ r ∈ s.regs, r = 0) ∧ s.z = false ∧ s.c = false ∧ s.pc = 0 ∧
    s.cycles = 0 ∧ s.halted = false ∧ s.termination = none ∧
    ∀ r : Byte, r.toNat < cfg.numRegs → exec (.get r) s = .next { s with pc := 2, cycles := 1 }

/-- Reset, and the start of every run with admitted parameters, meet the invariant. `State.reset` is the run with the
default parameters and nothing launched, which is the model's choice (log entry 12). -/
def Obligations.LaunchMeetsTheInvariant : Prop :=
  State.reset.wf = true ∧ State.reset = State.launch Config.defaults [] 0 ∧
  ∀ (cfg : Config) (bytes : List Byte) (maxCycles : Nat),
    cfg.wellFormed = true → (State.launch cfg bytes maxCycles).wf = true

/-- With no budget the run ends at once with `CycleLimitReached` in the reset state, even with an empty image; with an
empty image and some budget the first step faults with `PCOutOfBounds` at 0 (spec/40_cycle.md R110). -/
def Obligations.EmptyBudgetAndEmptyImage : Prop :=
  (∀ (cfg : Config) (bytes : List Byte),
    step (State.launch cfg bytes 0) =
      .next { State.launch cfg bytes 0 with termination := some .cycleLimitReached }) ∧
  ∀ (cfg : Config) (maxCycles : Nat), 0 < maxCycles →
    step (State.launch cfg [] maxCycles) =
      .next { State.launch cfg [] maxCycles with termination := some (.fault 0 .pcOutOfBounds) }

/-! ### The invariant of a run -/

/-- Every step keeps the invariant: admitted parameters, an image in canonical form, `NUM_REGS` registers,
`CYCLES <= max_cycles`, `pc` in -128 .. N+127, and a termination record that agrees with the rest of the state
(spec/10_state.md R22, R25, R35, R36; spec/20_memory.md R45). -/
def Obligations.StepKeepsTheInvariant : Prop :=
  ∀ s t : State, s.wf = true → step s = .next t → t.wf = true

/-- From every state that meets the invariant a step answers a next state: the engine never blocks, and the model's own
stops are never met (spec/93_implementation_defined.md, after Part 1; log entry 13). -/
def Obligations.NoStepFromTheInvariantStops : Prop :=
  ∀ s : State, s.wf = true → ∃ t, step s = .next t

/-- No instruction, and no step, changes instruction memory: every address reads as before, and the image is the same
image (spec/20_memory.md R51). -/
def Obligations.InstructionMemoryIsNeverWritten : Prop :=
  (∀ (i : Instr) (s t : State), exec i s = .next t → t.image = s.image ∧ ∀ a, t.image.read a = s.image.read a) ∧
  ∀ s t : State, step s = .next t → t.image = s.image ∧ ∀ a, t.image.read a = s.image.read a

/-- No step changes the inputs of the run: the parameters, the image and the budget (spec/10_state.md R39). -/
def Obligations.StepKeepsTheInputsOfTheRun : Prop :=
  ∀ s t : State, step s = .next t → t.cfg = s.cfg ∧ t.image = s.image ∧ t.maxCycles = s.maxCycles

/-! ### Instruction memory -/

/-- `MemRead(a, 1)` returns image[a] when 0 <= a < N and raises `PCOutOfBounds` otherwise (spec/20_memory.md R48). -/
def Obligations.MemReadIsBoundsChecked : Prop :=
  ∀ (s : State) (a : Int) (f : Byte → Result), s.image.wf = true →
    (a < 0 ∨ (s.image.length : Int) ≤ a →
      s.memRead a f = .next { s with termination := some (.fault s.pc .pcOutOfBounds) }) ∧
    (0 ≤ a → a < s.image.length → ∃ b, s.image.bytes[a.toNat]? = some b ∧ s.memRead a f = f b)

/-! ### The cycle -/

/-- When the bytes at `pc` decode to an instruction and the engine can step, the step is that instruction's execute
rule (spec/40_cycle.md R102, R104, R105, R106). `exec` includes the advance of `pc` and the count. -/
def Obligations.StepRunsTheDecodedInstruction : Prop :=
  ∀ (s : State) (i : Instr) (rest : List Byte), CanStep s → s.image.wf = true → 0 ≤ s.pc →
    decode s.cfg.opc (s.image.bytes.drop s.pc.toNat) = .ok (i, rest) → step s = exec i s

/-- An engine that can step and whose `pc` is outside 0..N-1 takes the fault `PCOutOfBounds`, recorded with that `pc`
and with no other write (spec/40_cycle.md R102). -/
def Obligations.FetchOutsideTheImageFaults : Prop :=
  ∀ s : State, CanStep s → s.pc < 0 ∨ (s.image.length : Int) ≤ s.pc →
    step s = .next { s with termination := some (.fault s.pc .pcOutOfBounds) }

/-- A byte that is no mnemonic's opcode, fetched as an opcode, is the fault `InvalidOpcode`, with no other write; it is
raised even where no byte follows, since decode comes before the operand fetch (spec/40_cycle.md R103, R104). -/
def Obligations.UnknownOpcodeFaults : Prop :=
  ∀ (s : State) (op : Byte), CanStep s → s.image.wf = true → 0 ≤ s.pc →
    s.image.bytes[s.pc.toNat]? = some op → (∀ m : Mnemonic, s.cfg.opc.byte m ≠ op) →
    step s = .next { s with termination := some (.fault s.pc .invalidOpcode) }

/-- Operand fetch: a two-byte instruction runs with the byte at `pc + 1`, or faults with `PCOutOfBounds` at the opcode's
address if there is none; a one-byte instruction runs whether or not there is a byte at `pc + 1`, and whatever it is
(spec/40_cycle.md R105). -/
def Obligations.OperandFetchFollowsTheWidth : Prop :=
  ∀ (s : State) (op : Byte) (m : Mnemonic), CanStep s → s.image.wf = true → 0 ≤ s.pc →
    s.image.bytes[s.pc.toNat]? = some op → decodeOpcode s.cfg.opc op = some m →
    (m.width = 2 →
      (∀ b, s.image.bytes[s.pc.toNat + 1]? = some b → step s = exec (m.instr b) s) ∧
      ((s.image.length : Int) ≤ s.pc + 1 →
        step s = .next { s with termination := some (.fault s.pc .pcOutOfBounds) })) ∧
    (m.width = 1 → ∀ b, step s = exec (m.instr b) s)

/-- When the engine cannot step and the record is empty, the run ends: `Halted` if HALTED, whatever the budget;
otherwise `CycleLimitReached`, whatever `pc` is, and then CYCLES = max_cycles. Neither end is a fault
(spec/40_cycle.md R101). -/
def Obligations.RunThatCannotStepEnds : Prop :=
  ∀ s : State, s.termination = none →
    (s.halted = true → step s = .next { s with termination := some .halted }) ∧
    (s.halted = false → s.maxCycles ≤ s.cycles →
      step s = .next { s with termination := some .cycleLimitReached } ∧
      (s.wf = true → s.cycles = s.maxCycles)) ∧
    normalEnd .halted = true ∧ normalEnd .cycleLimitReached = true

/-- A run that has ended keeps its record and its whole state: a step of the model leaves it as it is. That a further
step is a next state and not a stop is the model's choice (log entry 10; spec/10_state.md R36, spec/40_cycle.md R100). -/
def Obligations.EndedRunStaysAsItIs : Prop :=
  ∀ (s : State) (n : Nat), s.termination.isSome = true → RunsTo n s s

/-- Counting: a step of an engine that can step counts one cycle if it completes, HALT's step included, and leaves ACC,
R, Z, C, pc, CYCLES and HALTED as they were if it faults; a step of an engine that cannot step leaves them as they were
(spec/40_cycle.md R107). -/
def Obligations.CyclesCountsCompletedSteps : Prop :=
  ∀ s t : State, step s = .next t →
    (CanStep s → t.termination = none → t.cycles = s.cycles + 1) ∧
    (CanStep s → t.termination.isSome = true → t.engine = s.engine) ∧
    (¬CanStep s → t.engine = s.engine)

/-- Faults are precise: if a step ends the run in a fault, the state is the state before the step, with the record of
the `pc` at the start of the step and the kind; nothing else is written (spec/40_cycle.md R108; spec/60_exceptions.md
R172, R173, R175). -/
def Obligations.FaultsArePrecise : Prop :=
  ∀ (s t : State) (p : Int) (kind : FaultKind), step s = .next t → s.termination = none →
    t.termination = some (.fault p kind) →
    CanStep s ∧ p = s.pc ∧ t = { s with termination := some (.fault s.pc kind) }

/-- A step depends on no byte of the image but those at `pc` and `pc + 1`, and on the image's length
(spec/20_memory.md R47). -/
def Obligations.StepReadsOnlyItsOwnInstruction : Prop :=
  ∀ (s t : State) (image : Memory), image.length = s.image.length →
    (∀ a : Nat, (a : Int) = s.pc ∨ (a : Int) = s.pc + 1 → image.read a = s.image.read a) →
    step s = .next t → step { s with image := image } = .next { t with image := image }

/-! ### Transfer instructions -/

/-- SET: encoded as OPC(SET) and the immediate; ACC becomes the immediate, `pc` advances by 2, the cycle is counted, and
nothing else changes, neither flag included (spec/41_transfer.md R120). -/
def Obligations.SetLoadsTheImmediate : Prop :=
  ∀ (b : Byte) (s : State),
    encode s.cfg.opc (.set b) = [s.cfg.opc.byte .set, b] ∧
    exec (.set b) s = .next { s with acc := b, pc := s.pc + 2, cycles := s.cycles + 1 }

/-- PUT: R[b] becomes ACC, which then reads back, and nothing else changes but `pc` and CYCLES; an index not below
NUM_REGS is `InvalidRegisterIndex` and writes nothing (spec/41_transfer.md R121). -/
def Obligations.PutCopiesAccToTheRegister : Prop :=
  ∀ (b : Byte) (s : State),
    encode s.cfg.opc (.put b) = [s.cfg.opc.byte .put, b] ∧
    (b.toNat < s.cfg.numRegs → s.regs.length = s.cfg.numRegs →
      exec (.put b) s =
        .next { s with regs := s.regs.set b.toNat s.acc, pc := s.pc + 2, cycles := s.cycles + 1 } ∧
      ∀ j : Nat, j < s.cfg.numRegs →
        (s.regs.set b.toNat s.acc)[j]? = if j = b.toNat then some s.acc else s.regs[j]?) ∧
    (s.cfg.numRegs ≤ b.toNat →
      exec (.put b) s = .next { s with termination := some (.fault s.pc .invalidRegisterIndex) })

/-- GET: ACC becomes R[b], and nothing else changes but `pc` and CYCLES, neither flag even if the value is 0; an index
not below NUM_REGS is `InvalidRegisterIndex` and writes nothing (spec/41_transfer.md R122). -/
def Obligations.GetCopiesTheRegisterToAcc : Prop :=
  ∀ (b : Byte) (s : State),
    encode s.cfg.opc (.get b) = [s.cfg.opc.byte .get, b] ∧
    (b.toNat < s.cfg.numRegs → s.regs.length = s.cfg.numRegs →
      ∃ x, s.regs[b.toNat]? = some x ∧
        exec (.get b) s = .next { s with acc := x, pc := s.pc + 2, cycles := s.cycles + 1 }) ∧
    (s.cfg.numRegs ≤ b.toNat →
      exec (.get b) s = .next { s with termination := some (.fault s.pc .invalidRegisterIndex) })

/-- The transfer laws: PUT Ri then GET Ri leaves ACC as it was; GET Ri then PUT Rj copies R[i] to R[j]; no transfer
instruction changes Z or C, and each that completes advances `pc` by 2 and CYCLES by 1 (spec/41_transfer.md R123). -/
def Obligations.TransferLaws : Prop :=
  (∀ (i : Byte) (s : State), i.toNat < s.cfg.numRegs → s.regs.length = s.cfg.numRegs →
    ∃ t u, exec (.put i) s = .next t ∧ exec (.get i) t = .next u ∧ u.acc = s.acc) ∧
  (∀ (i j : Byte) (s : State), i.toNat < s.cfg.numRegs → j.toNat < s.cfg.numRegs →
    s.regs.length = s.cfg.numRegs →
    ∃ t u x, exec (.get i) s = .next t ∧ exec (.put j) t = .next u ∧ s.regs[i.toNat]? = some x ∧
      u.acc = x ∧ u.regs = s.regs.set j.toNat x) ∧
  ∀ (b : Byte) (i : Instr) (s t : State), i = .set b ∨ i = .put b ∨ i = .get b → exec i s = .next t →
    t.z = s.z ∧ t.c = s.c ∧
    (t.termination = none → t.pc = s.pc + 2 ∧ t.cycles = s.cycles + 1)

/-! ### Arithmetic instructions -/

/-- ADD: ACC becomes the sum modulo 256 of ACC and R[b], C whether the unsigned sum reaches 256, Z whether the result is
0; the old C does not matter and nothing else changes but `pc` and CYCLES; an index not below NUM_REGS is
`InvalidRegisterIndex` and writes nothing (spec/42_arithmetic.md R130). -/
def Obligations.AddAddsTheRegister : Prop :=
  ∀ (b : Byte) (s : State),
    encode s.cfg.opc (.add b) = [s.cfg.opc.byte .add, b] ∧
    (b.toNat < s.cfg.numRegs → s.regs.length = s.cfg.numRegs →
      ∃ x, s.regs[b.toNat]? = some x ∧
        exec (.add b) s =
          .next { s with acc := s.acc + x, c := decide (256 ≤ s.acc.toNat + x.toNat), z := decide (s.acc + x = 0),
                         pc := s.pc + 2, cycles := s.cycles + 1 }) ∧
    (s.cfg.numRegs ≤ b.toNat →
      exec (.add b) s = .next { s with termination := some (.fault s.pc .invalidRegisterIndex) })

/-- ADDI: the same with the immediate; no fault at execute (spec/42_arithmetic.md R131). -/
def Obligations.AddiAddsTheImmediate : Prop :=
  ∀ (b : Byte) (s : State),
    encode s.cfg.opc (.addi b) = [s.cfg.opc.byte .addi, b] ∧
    exec (.addi b) s =
      .next { s with acc := s.acc + b, c := decide (256 ≤ s.acc.toNat + b.toNat), z := decide (s.acc + b = 0),
                     pc := s.pc + 2, cycles := s.cycles + 1 }

/-- SUBI: ACC becomes the difference modulo 256, Z whether it is 0, and C by the polarity SUBI_CARRY: under BORROW
whether ACC was below the immediate as unsigned bytes, under NOT_BORROW the opposite (spec/42_arithmetic.md R132). -/
def Obligations.SubiSubtractsTheImmediate : Prop :=
  ∀ (b : Byte) (s : State),
    encode s.cfg.opc (.subi b) = [s.cfg.opc.byte .subi, b] ∧
    exec (.subi b) s =
      .next { s with acc := s.acc - b, z := decide (s.acc - b = 0),
                     c := if s.cfg.subiCarry = .borrow then decide (s.acc.toNat < b.toNat)
                          else decide (b.toNat ≤ s.acc.toNat),
                     pc := s.pc + 2, cycles := s.cycles + 1 }

/-- The identities of the arithmetic: after ADD or ADDI, ACC + 256 * C is the sum; after SUBI with BORROW, ACC - 256 * C
is the difference; Z is 1 exactly when ACC is 0 right after each of the three (spec/42_arithmetic.md R135). -/
def Obligations.ArithmeticIdentities : Prop :=
  (∀ (b x : Byte) (s t : State), b.toNat < s.cfg.numRegs → s.regs[b.toNat]? = some x → exec (.add b) s = .next t →
    t.acc.toNat + 256 * t.c.toNat = s.acc.toNat + x.toNat ∧ (t.z = true ↔ t.acc = 0)) ∧
  (∀ (b : Byte) (s t : State), exec (.addi b) s = .next t →
    t.acc.toNat + 256 * t.c.toNat = s.acc.toNat + b.toNat ∧ (t.z = true ↔ t.acc = 0)) ∧
  ∀ (b : Byte) (s t : State), exec (.subi b) s = .next t →
    (s.cfg.subiCarry = .borrow → (t.acc.toNat : Int) - 256 * (t.c.toNat : Int) = (s.acc.toNat : Int) - b.toNat) ∧
    (t.z = true ↔ t.acc = 0)

/-- ADDI 255 and SUBI 1 leave the same ACC, but not the same C: after ADDI 255 C is 1 unless ACC was 0. ADDI 0 keeps ACC,
clears C and makes Z say whether ACC is 0 (spec/42_arithmetic.md R131, corner cases). -/
def Obligations.AddiCornerCases : Prop :=
  (∀ s t u : State, exec (.addi 255) s = .next t → exec (.subi 1) s = .next u →
    t.acc = u.acc ∧ t.z = u.z ∧ (t.c = true ↔ s.acc ≠ 0) ∧
    (s.cfg.subiCarry = .borrow → (u.c = true ↔ s.acc = 0))) ∧
  ∀ s t : State, exec (.addi 0) s = .next t → t.acc = s.acc ∧ t.c = false ∧ (t.z = true ↔ s.acc = 0)

/-! ### Status refresh -/

/-- NOP: one byte, OPC(NOP); Z becomes whether ACC is 0; C is kept, or cleared under NOP_CARRY = CLEAR; ACC and all else
unchanged but `pc`, by 1, and CYCLES (spec/43_status.md R145). -/
def Obligations.NopRefreshesZero : Prop :=
  ∀ s : State,
    encode s.cfg.opc .nop = [s.cfg.opc.byte .nop] ∧
    exec .nop s =
      .next { s with z := decide (s.acc = 0), c := if s.cfg.nopCarry = .clear then false else s.c,
                     pc := s.pc + 1, cycles := s.cycles + 1 }

/-- GET Ri then NOP leaves ACC = R[i] and Z whether it is 0, with C unchanged under KEEP (spec/43_status.md R146). -/
def Obligations.GetThenNopTestsTheRegister : Prop :=
  ∀ (i : Byte) (s : State), i.toNat < s.cfg.numRegs → s.regs.length = s.cfg.numRegs →
    ∃ t u x, exec (.get i) s = .next t ∧ exec .nop t = .next u ∧ s.regs[i.toNat]? = some x ∧
      u.acc = x ∧ (u.z = true ↔ x = 0) ∧ (s.cfg.nopCarry = .keep → u.c = s.c)

/-- Two NOPs in a row give the same state as one, apart from `pc` and CYCLES (spec/43_status.md R145, corner cases). -/
def Obligations.SecondNopOnlyAdvances : Prop :=
  ∀ s t u : State, exec .nop s = .next t → exec .nop t = .next u →
    u = { t with pc := t.pc + 1, cycles := t.cycles + 1 }

/-! ### Control transfer -/

/-- The target is the base plus the offset byte read as two's complement, the base being the next address under AFTER
and the branch's own under SELF; under AFTER it lies in p - 126 .. p + 129, under SELF in p - 128 .. p + 127
(spec/44_control.md R150). -/
def Obligations.BranchTargetIsBasePlusOffset : Prop :=
  ∀ (cfg : Config) (p : Int) (b : Byte),
    branchTarget cfg p (p + 2) b = (if cfg.branchBase = .after then p + 2 else p) + b.toInt ∧
    (cfg.branchBase = .after → p - 126 ≤ branchTarget cfg p (p + 2) b ∧ branchTarget cfg p (p + 2) b ≤ p + 129) ∧
    (cfg.branchBase = .self → p - 128 ≤ branchTarget cfg p (p + 2) b ∧ branchTarget cfg p (p + 2) b ≤ p + 127)

/-- BZ: to the target if Z is 1, else to the next instruction; nothing else changes but CYCLES (spec/44_control.md
R151). -/
def Obligations.BzBranchesIfZero : Prop :=
  ∀ (b : Byte) (s : State),
    encode s.cfg.opc (.bz b) = [s.cfg.opc.byte .bz, b] ∧
    exec (.bz b) s =
      .next { s with pc := if s.z = true then branchTarget s.cfg s.pc (s.pc + 2) b else s.pc + 2,
                     cycles := s.cycles + 1 }

/-- BCS: to the target if C is 1, else to the next instruction; nothing else changes but CYCLES (spec/44_control.md
R152). -/
def Obligations.BcsBranchesIfCarry : Prop :=
  ∀ (b : Byte) (s : State),
    encode s.cfg.opc (.bcs b) = [s.cfg.opc.byte .bcs, b] ∧
    exec (.bcs b) s =
      .next { s with pc := if s.c = true then branchTarget s.cfg s.pc (s.pc + 2) b else s.pc + 2,
                     cycles := s.cycles + 1 }

/-- JMPI: to the target, whatever the flags; nothing else changes but CYCLES (spec/44_control.md R153). -/
def Obligations.JmpiJumps : Prop :=
  ∀ (b : Byte) (s : State),
    encode s.cfg.opc (.jmpi b) = [s.cfg.opc.byte .jmpi, b] ∧
    exec (.jmpi b) s = .next { s with pc := branchTarget s.cfg s.pc (s.pc + 2) b, cycles := s.cycles + 1 }

/-- BZ, BCS and JMPI raise no fault whatever the target is. JMPI, BZ with Zero set and BCS with Carry set write the
target itself to `pc`, neither wrapped nor clamped; if the target is outside 0..N-1, the step after it, if the engine can
take one, faults with `PCOutOfBounds` at that target and writes nothing else (spec/44_control.md R154). -/
def Obligations.TargetOutsideTheImageFaultsNext : Prop :=
  ∀ (b : Byte) (i : Instr) (s t : State), i = .bz b ∨ i = .bcs b ∨ i = .jmpi b → exec i s = .next t →
    t.termination = s.termination ∧
    ((i = .bz b ∧ s.z = true) ∨ (i = .bcs b ∧ s.c = true) ∨ i = .jmpi b →
      ∀ target : Int, target = branchTarget s.cfg s.pc (s.pc + 2) b →
        t.pc = target ∧
        (target < 0 ∨ (s.image.length : Int) ≤ target → CanStep t →
          step t = .next { t with termination := some (.fault target .pcOutOfBounds) }))

/-! ### HALT -/

/-- HALT: one byte, OPC(HALT); HALTED is set and `pc` moves past it, the cycle counts, nothing else changes; the run then
ends with `Halted`, also where the budget is spent by that very step (spec/45_halt.md R165). -/
def Obligations.HaltStopsTheEngine : Prop :=
  ∀ s : State,
    encode s.cfg.opc .halt = [s.cfg.opc.byte .halt] ∧
    exec .halt s = .next { s with halted := true, pc := s.pc + 1, cycles := s.cycles + 1 } ∧
    (s.termination = none → ∀ t, exec .halt s = .next t → step t = .next { t with termination := some .halted })

/-- Once HALTED is set, no number of steps changes ACC, R, Z, C, pc, CYCLES or HALTED, or the inputs of the run; and the
run, if it had not ended before, ends with `Halted` (spec/45_halt.md R166). -/
def Obligations.NothingHappensAfterHalt : Prop :=
  ∀ (s t : State) (n : Nat), s.halted = true → RunsTo n s t →
    t.engine = s.engine ∧ t.cfg = s.cfg ∧ t.image = s.image ∧ t.maxCycles = s.maxCycles ∧
    (s.termination = none → 0 < n → t.termination = some .halted)

/-! ### Which instruction writes what -/

/-- Only ADD, ADDI, SUBI and NOP write the flags; every other instruction leaves both as they were
(spec/10_state.md R31). -/
def Obligations.OnlyFlagAffectingInstructionsWriteFlags : Prop :=
  ∀ (i : Instr) (s t : State), exec i s = .next t → t.z ≠ s.z ∨ t.c ≠ s.c →
    i.mnemonic = .add ∨ i.mnemonic = .addi ∨ i.mnemonic = .subi ∨ i.mnemonic = .nop

/-- Only PUT writes a general register, and only the one it names (spec/10_state.md R24). -/
def Obligations.OnlyPutWritesARegister : Prop :=
  ∀ (i : Instr) (s t : State) (j : Nat), exec i s = .next t → t.regs[j]? ≠ s.regs[j]? →
    ∃ b : Byte, i = .put b ∧ j = b.toNat

/-- ACC is written by SET, GET, ADD, ADDI and SUBI only (spec/10_state.md R21). -/
def Obligations.OnlyFiveInstructionsWriteAcc : Prop :=
  ∀ (i : Instr) (s t : State), exec i s = .next t → t.acc ≠ s.acc →
    i.mnemonic = .set ∨ i.mnemonic = .get ∨ i.mnemonic = .add ∨ i.mnemonic = .addi ∨ i.mnemonic = .subi

/-- HALTED is set only by HALT and cleared by no instruction; once it is set the engine takes no further step
(spec/10_state.md R34). -/
def Obligations.OnlyHaltSetsHalted : Prop :=
  (∀ (i : Instr) (s t : State), exec i s = .next t → (t.halted = true ↔ s.halted = true ∨ i = .halt)) ∧
  ∀ s t : State, s.halted = true → step s = .next t → t.engine = s.engine

/-- PUT, GET and ADD, and no other instruction, raise `InvalidRegisterIndex` at execute, exactly when their operand
byte is not below NUM_REGS; no register, flag, ACC or `pc` is then written (spec/60_exceptions.md R171). -/
def Obligations.RegisterIndexFault : Prop :=
  (∀ (b : Byte) (i : Instr) (s : State), i = .put b ∨ i = .get b ∨ i = .add b → s.cfg.numRegs ≤ b.toNat →
    exec i s = .next { s with termination := some (.fault s.pc .invalidRegisterIndex) }) ∧
  ∀ (i : Instr) (s t : State), exec i s = .next t → t.termination ≠ s.termination →
    ∃ b : Byte, (i = .put b ∨ i = .get b ∨ i = .add b) ∧ s.cfg.numRegs ≤ b.toNat

/-! ### The opcode map, the PC width -/

/-- No execute rule reads an opcode value: with another opcode map every instruction does the same
(spec/30_encoding.md R89). -/
def Obligations.ExecuteNeverReadsTheOpcodeMap : Prop :=
  ∀ (o : OpcodeMap) (i : Instr) (s t : State), exec i s = .next t →
    exec i { s with cfg := { s.cfg with opc := o } } = .next { t with cfg := { t.cfg with opc := o } }

/-- A run of a program does not depend on which injective opcode map it is encoded and decoded in, provided every step
it takes is at an instruction boundary (spec/30_encoding.md R89). -/
def Obligations.RunsDoNotDependOnTheOpcodeMap : Prop :=
  ∀ (o o' : OpcodeMap) (is : List Instr) (s t : State) (n : Nat), o.injective = true → o'.injective = true →
    (∀ (j : Nat) (u : State), j < n → RunsTo j (reencode o is s) u → CanStep u → AtBoundary is u.pc) →
    RunsTo n (reencode o is s) t → RunsTo n (reencode o' is s) (reencode o' is t)

/-- A hardware PC of PC_WIDTH bits that wraps agrees with the integer `pc` whenever N + 128 <= 2^PC_WIDTH: it is inside
the image exactly when `pc` is, and is then equal to it (spec/92_eei_decisions.md D7; spec/10_state.md R25). -/
def Obligations.WrappedPcAgrees : Prop :=
  ∀ (s : State) (w : Nat), s.wf = true → s.cfg.pcWidth = some w → s.image.length + 128 ≤ 2 ^ w →
    ∃ q, s.boardPc = some q ∧ (q < s.image.length ↔ 0 ≤ s.pc ∧ s.pc < s.image.length) ∧
      (0 ≤ s.pc → s.pc < s.image.length → (q : Int) = s.pc)

/-! ### Whole runs -/

/-- Every run ends within max_cycles steps: after one more step, which records the end, the record is set, CYCLES is
within the budget, and nothing happens any more (spec/93_implementation_defined.md, after Part 1; spec/40_cycle.md
R101). -/
def Obligations.EveryRunEndsWithinItsBudget : Prop :=
  ∀ (cfg : Config) (image : List Byte) (maxCycles : Nat), cfg.wellFormed = true →
    ∃ t, t.termination.isSome = true ∧ t.cycles ≤ maxCycles ∧
      ∀ n, maxCycles + 1 ≤ n → RunsTo n (State.launch cfg image maxCycles) t

/-- The machine refines the run function of R109: stepped to its end, it reports the final state and the termination
reason that the loop over the launch inputs, the decoder's control outputs (R72) and the datapath gives
(spec/40_cycle.md R109; spec/10_state.md R20). -/
def Obligations.MachineRefinesTheRunLoop : Prop :=
  ∀ (cfg : Config) (image : List Byte) (maxCycles : Nat), cfg.wellFormed = true →
    ∃ t, RunsTo (maxCycles + 1) (State.launch cfg image maxCycles) t ∧
      t.outputs = some (runImage cfg image maxCycles)

/-- The meaning of every instruction is what the decoder's control outputs make the datapath do (spec/30_encoding.md
R72). The datapath's 9-bit adder is the model's choice (log entry 24). -/
def Obligations.MeaningsObeyTheControlTable : Prop :=
  ∀ (m : Mnemonic) (b : Byte) (s : State), s.regs.length = s.cfg.numRegs →
    match (controlOf m).obey s.cfg b s.engine with
    | .ok e => ∃ t, exec (m.instr b) s = .next t ∧ t.engine = e ∧ t.cfg = s.cfg ∧ t.image = s.image ∧
        t.maxCycles = s.maxCycles ∧ t.termination = s.termination
    | .error kind => exec (m.instr b) s = .next { s with termination := some (.fault s.pc kind) }

/-- Runs are prefix-consistent: if the run with budget k ends with `CycleLimitReached`, every run with a larger budget
passes through exactly the state it reported, after k steps (spec/40_cycle.md R114). -/
def Obligations.RunsArePrefixConsistent : Prop :=
  ∀ (cfg : Config) (image : List Byte) (k k' : Nat) (t : State), k < k' →
    RunsTo (k + 1) (State.launch cfg image k) t → t.termination = some .cycleLimitReached →
    RunsTo k (State.launch cfg image k') { t with maxCycles := k', termination := none }

/-- A run is safe, ending and not by a fault, exactly if the run function reports a normal end (spec/60_exceptions.md
R177). -/
def Obligations.SafeRunsAreThoseThatReportNoFault : Prop :=
  ∀ (cfg : Config) (image : List Byte) (maxCycles : Nat), cfg.wellFormed = true →
    (SafeRun cfg image maxCycles ↔ normalEnd (runImage cfg image maxCycles).2 = true)

/-! ### The assembler -/

/-- The assembler's offset and the engine's target agree under either BRANCH_BASE: a branch assembled for a target goes
there, and there is no operand byte exactly when the offset is outside -128..127 (spec/30_encoding.md R80, R83). -/
def Obligations.AssembledOffsetReachesItsTarget : Prop :=
  ∀ (cfg : Config) (p width target : Int),
    (∀ b, assembleOffset cfg p width target = some b → branchTarget cfg p (p + width) b = target) ∧
    (assembleOffset cfg p width target = none ↔
      target - branchBase cfg p (p + width) < -128 ∨ 127 < target - branchBase cfg p (p + width))

/-- What the assembler emits is the encoding of instructions whose register operands are below NUM_REGS, so the engine
raises no `InvalidRegisterIndex` on them (spec/30_encoding.md R78, R80, R81). -/
def Obligations.AssembledProgramsAreWellFormed : Prop :=
  ∀ (cfg : Config) (malformed : AsmErrorKind) (source : Text) (bytes : List Byte),
    assemble cfg malformed source = .ok bytes →
    ∃ is, assembleInstrs cfg malformed source = .ok is ∧ bytes = encodeAll cfg.opc is ∧
      ∀ i ∈ is, i.wellFormed cfg.numRegs = true

/-- The two passes and the engine agree. Line `k` with an instruction becomes the item and the instruction whose number
is that of the instruction lines before it, and pass 1 gives it the address where pass 2 emits it. A label on line `k`
is bound to the address of the next instruction, which is N if there is none; and no label is bound to anything but an
instruction boundary. For an injective OPC, what the decoder reads at an item's address is that item's instruction, as
long as what was emitted for it; and an engine holding the emitted image, able to step and with `pc` there, runs it
(spec/30_encoding.md R77, R79, R83). -/
def Obligations.AssemblerAddressesAreFetchAddresses : Prop :=
  ∀ (cfg : Config) (malformed : AsmErrorKind) (lines : List LineBody) (items : List Item) (labels : Labels)
    (is : List Instr),
    passOne 1 0 [] lines = .ok (items, labels) → passTwo cfg malformed labels items = .ok is →
    is.map Instr.mnemonic = items.map Item.mnemonic ∧
    (∀ (j : Nat) (item : Item), items[j]? = some item → item.addr = (encodeAll cfg.opc (is.take j)).length) ∧
    (∀ (k : Nat) (word : Text) (ops : List Text), lines[k]? = some (.instr word ops) →
      ∃ item, items[instrsBefore lines k]? = some item ∧ item.line = k + 1 ∧
        readMnemonic word = some item.mnemonic ∧ item.operands = ops) ∧
    (∀ (k : Nat) (name : Text), lines[k]? = some (.label name) →
      labels.lookup name = some (encodeAll cfg.opc (is.take (instrsBefore lines k))).length) ∧
    (∀ name addr, (name, addr) ∈ labels → AtBoundary is (addr : Int)) ∧
    (cfg.opc.injective = true → ∀ (j : Nat) (item : Item) (i : Instr), items[j]? = some item → is[j]? = some i →
      decode cfg.opc ((encodeAll cfg.opc is).drop item.addr) = .ok (i, encodeAll cfg.opc (is.drop (j + 1))) ∧
      ∀ s : State, s.cfg = cfg → s.image = Memory.ofBytes (encodeAll cfg.opc is) → s.pc = item.addr → CanStep s →
        step s = exec i s)
end

