-- ==== Sys2Proof/Laws/Assembler.lean ====
section
/-! SUPPORT. The count of instruction lines, one line at a time. -/

namespace Sys2Proof.Machine

variable (lines : List LineBody) (k : Nat)

@[simp] theorem instrsBefore_zero : instrsBefore lines 0 = 0 := rfl

@[simp] theorem instrsBefore_blank : instrsBefore (.blank :: lines) (k + 1) = instrsBefore lines k :=
  List.countP_cons_of_neg (by decide)

@[simp] theorem instrsBefore_label (name : Text) :
    instrsBefore (.label name :: lines) (k + 1) = instrsBefore lines k :=
  List.countP_cons_of_neg (by simp [LineBody.isInstr])

@[simp] theorem instrsBefore_instr (word : Text) (ops : List Text) :
    instrsBefore (.instr word ops :: lines) (k + 1) = instrsBefore lines k + 1 :=
  List.countP_cons_of_pos rfl

end Sys2Proof.Machine
end

