-- ==== Sys2Proof/Laws/Decode.lean ====
section
/-! SUPPORT. What the decoder's lookup answers, and the lengths of encodings. -/

namespace Sys2Proof

theorem Mnemonic.mem_all (m : Mnemonic) : m ∈ Mnemonic.all := by
  cases m <;> decide

theorem OpcodeMap.byte_inj {o : OpcodeMap} (h : o.injective = true) {m n : Mnemonic} (e : o.byte m = o.byte n) :
    m = n := by
  simp only [OpcodeMap.injective, decide_eq_true_eq] at h
  exact List.inj_on_of_nodup_map h m.mem_all n.mem_all e

/-- The mnemonic the lookup answers has the opcode byte that was looked up, whatever the map. -/
theorem decodeOpcode_some {o : OpcodeMap} {op : Byte} {m : Mnemonic} (h : decodeOpcode o op = some m) :
    o.byte m = op := by
  have := List.find?_some h
  simpa using this

/-- For an injective map the lookup of a mnemonic's opcode byte answers that mnemonic. -/
theorem decodeOpcode_byte {o : OpcodeMap} (h : o.injective = true) (m : Mnemonic) :
    decodeOpcode o (o.byte m) = some m := by
  cases hd : decodeOpcode o (o.byte m) with
  | none =>
    have := List.find?_eq_none.mp hd m m.mem_all
    simp at this
  | some n => rw [OpcodeMap.byte_inj h (decodeOpcode_some hd)]

@[simp] theorem Mnemonic.instr_mnemonic (m : Mnemonic) (b : Byte) : (m.instr b).mnemonic = m := by
  cases m <;> rfl

@[simp] theorem Mnemonic.instr_width (m : Mnemonic) (b : Byte) : (m.instr b).width = m.width := by
  cases m <;> rfl

theorem Mnemonic.width_of_f1 {m : Mnemonic} (h : m.operandKind = none) : m.width = 1 := by
  simp [Mnemonic.width, h]

theorem Mnemonic.width_of_f2 {m : Mnemonic} {kind : OperandKind} (h : m.operandKind = some kind) : m.width = 2 := by
  simp [Mnemonic.width, h]

/-- A program's bytes are as many as its instructions' widths together. -/
theorem length_encodeAll (o : OpcodeMap) (is : List Instr) :
    (encodeAll o is).length = (is.map Instr.width).sum := by
  induction is with
  | nil => rfl
  | cons i is ih =>
    have hi : (encode o i).length = i.width := by cases i <;> rfl
    simp only [encodeAll, List.flatMap_cons, List.length_append, List.map_cons, List.sum_cons] at ih ⊢
    rw [hi, ih]

end Sys2Proof
end

