-- ==== Sys2Proof/Laws/Flags.lean ====
section
/-! SUPPORT. What the ALU, the flags and the operand forms compute, in the words of bit vectors. -/

namespace Sys2Proof.Machine

/-- `alu_add` is the sum of bytes, with the carry of the unsigned sum. -/
theorem aluAdd_eq (a x : Byte) : aluAdd a x = (a + x, decide (256 ≤ a.toNat + x.toNat)) := by
  refine Prod.ext ?_ rfl
  apply BitVec.eq_of_toNat_eq
  simp [aluAdd, zext8, BitVec.toNat_add]

/-- `alu_sub` is the difference of bytes, with the borrow of the unsigned difference. -/
theorem aluSub_eq (a x : Byte) : aluSub a x = (a - x, decide (a.toNat < x.toNat)) := by
  refine Prod.ext ?_ rfl
  apply BitVec.eq_of_toNat_eq
  have ha := a.isLt
  have hx := x.isLt
  simp only [aluSub, zext8, BitVec.toNat_sub, BitVec.toNat_ofInt]
  omega

@[simp] theorem zeroFlag_eq_true (r : Byte) : zeroFlag r = true ↔ r = 0 := by
  simp [zeroFlag]

@[simp] theorem subiCarryFlag_borrow (b : Bool) : subiCarryFlag .borrow b = b := rfl
@[simp] theorem subiCarryFlag_notBorrow (b : Bool) : subiCarryFlag .notBorrow b = !b := rfl
@[simp] theorem nopCarryFlag_keep (c : Bool) : nopCarryFlag .keep c = c := rfl
@[simp] theorem nopCarryFlag_clear (c : Bool) : nopCarryFlag .clear c = false := rfl

/-- `sext_8` is the two's complement value of the byte. -/
theorem sext8_eq_toInt (v : Byte) : sext8 v = v.toInt := by
  rw [sext8, BitVec.toInt_eq_toNat_cond]
  split <;> split <;> omega

theorem sext8_bounds (v : Byte) : -128 ≤ sext8 v ∧ sext8 v ≤ 127 := by
  have hv := v.isLt
  unfold sext8
  split <;> omega

/-! ### The 9-bit adder of the datapath -/

theorem wideSum_low (a x : Byte) : (wideSum a x).setWidth 8 = a + x := by
  apply BitVec.eq_of_toNat_eq
  simp [wideSum, BitVec.toNat_add, BitVec.toNat_setWidth]

theorem wideDifference_low (a x : Byte) : (wideDifference a x).setWidth 8 = a - x := by
  apply BitVec.eq_of_toNat_eq
  have ha := a.isLt
  have hx := x.isLt
  simp [wideDifference, BitVec.toNat_sub, BitVec.toNat_setWidth]
  omega

theorem bit8_eq (v : BitVec 9) : v.getLsbD 8 = decide (256 ≤ v.toNat) := by
  have hv := v.isLt
  rw [BitVec.getLsbD, Nat.testBit_eq_decide_div_mod_eq]
  by_cases h : 256 ≤ v.toNat <;> simp [h] <;> omega

theorem wideSum_carry (a x : Byte) : (wideSum a x).getLsbD 8 = decide (256 ≤ a.toNat + x.toNat) := by
  have ha := a.isLt
  have hx := x.isLt
  rw [bit8_eq]
  simp [wideSum, BitVec.toNat_add, BitVec.toNat_setWidth]
  omega

theorem wideDifference_borrow (a x : Byte) : (wideDifference a x).getLsbD 8 = decide (a.toNat < x.toNat) := by
  have ha := a.isLt
  have hx := x.isLt
  rw [bit8_eq]
  simp [wideDifference, BitVec.toNat_sub, BitVec.toNat_setWidth]
  omega

end Sys2Proof.Machine
end

