-- ==== Sys2Proof/Laws/Memory.lean ====
section
/-! SUPPORT. The laws of instruction memory: the canonical form, which every operation that makes an image gives it,
and what a read answers. -/

namespace Sys2Proof.Machine

theorem Memory.wf_iff (m : Memory) : m.wf = true ↔ m.map Prod.fst = List.range m.length := by
  simp [Memory.wf]

/-! ### An image made from bytes -/

@[simp] theorem Memory.length_ofBytes (bs : List Byte) : (Memory.ofBytes bs).length = bs.length := by
  simp [Memory.ofBytes]

@[simp] theorem Memory.bytes_ofBytes (bs : List Byte) : (Memory.ofBytes bs).bytes = bs := by
  simp [Memory.ofBytes, Memory.bytes, List.map_snd_zip]

@[simp] theorem Memory.ofBytes_wf (bs : List Byte) : (Memory.ofBytes bs).wf = true := by
  rw [Memory.wf_iff, Memory.length_ofBytes]
  simp [Memory.ofBytes, List.map_fst_zip]

@[simp] theorem Memory.length_bytes (m : Memory) : m.bytes.length = m.length := by
  simp [Memory.bytes]

/-- The only operation that changes an image gives the canonical form. -/
@[simp] theorem Memory.store_wf (m : Memory) (a : Nat) (new : List Byte) : (m.store a new).wf = true :=
  Memory.ofBytes_wf _

/-! ### The canonical form -/

/-- A canonical image is its bytes: equal memories are equal data. -/
theorem Memory.ofBytes_bytes {m : Memory} (h : m.wf = true) : Memory.ofBytes m.bytes = m := by
  rw [Memory.wf_iff] at h
  rw [Memory.ofBytes, Memory.length_bytes, ← h, Memory.bytes]
  exact (List.zip_of_prod rfl rfl).symm

/-- In canonical form the addresses rise strictly. -/
theorem Memory.wf_rising {m : Memory} (h : m.wf = true) : (m.map Prod.fst).Pairwise (· < ·) := by
  rw [Memory.wf_iff] at h
  rw [h]
  exact List.pairwise_lt_range

/-- No listed byte equals what an unlisted address reads as, since that is no byte at all. -/
theorem Memory.listed_ne_unlisted (m : Memory) : ∀ cell ∈ m, some cell.2 ≠ Memory.unlisted := by
  intro cell _ h
  cases h

/-! ### Reading -/

theorem Memory.read_eq_lookup (m : Memory) (a : Nat) : m.read a = m.lookup a := by
  unfold Memory.read Memory.unlisted
  cases m.lookup a <;> rfl

/-- Looking up an address among consecutive addresses is indexing. -/
theorem Memory.lookup_zip_range' (bs : List Byte) (start a : Nat) :
    ((List.range' start bs.length).zip bs).lookup (start + a) = bs[a]? := by
  induction bs generalizing start a with
  | nil => simp
  | cons b rest ih =>
    simp only [List.length_cons, List.range'_succ, List.zip_cons_cons, List.lookup_cons]
    cases a with
    | zero => simp
    | succ a =>
      have hne : (start + (a + 1) == start) = false := by simp
      rw [hne, List.getElem?_cons_succ, ← ih (start + 1) a, show start + (a + 1) = start + 1 + a by omega]

theorem Memory.read_ofBytes (bs : List Byte) (a : Nat) : (Memory.ofBytes bs).read a = bs[a]? := by
  have h := Memory.lookup_zip_range' bs 0 a
  rw [Nat.zero_add] at h
  rw [Memory.read_eq_lookup, Memory.ofBytes, List.range_eq_range', h]

/-- In canonical form a read answers the byte at that offset of the image, and none at or beyond its end. -/
theorem Memory.read_of_wf {m : Memory} (h : m.wf = true) (a : Nat) : m.read a = m.bytes[a]? := by
  rw [← Memory.read_ofBytes, Memory.ofBytes_bytes h]

/-! ### Storing -/

theorem Memory.bytes_store (m : Memory) (a : Nat) (new : List Byte) :
    (m.store a new).bytes =
      (m.bytes ++ List.replicate (a - m.length) 0).take a ++ new
        ++ (m.bytes ++ List.replicate (a - m.length) 0).drop (a + new.length) := by
  simp [Memory.store]

theorem Memory.length_filled (m : Memory) (a : Nat) :
    ((m.bytes ++ List.replicate (a - m.length) (0 : Byte)).take a).length = a := by
  simp only [List.length_take, List.length_append, Memory.length_bytes, List.length_replicate]
  omega

/-- A read after a store to the same place gives the byte stored. -/
theorem Memory.read_store_same (m : Memory) (a k : Nat) (new : List Byte) (hk : k < new.length) :
    (m.store a new).read (a + k) = new[k]? := by
  have hlen := Memory.length_filled m a
  rw [Memory.read_of_wf (Memory.store_wf m a new), Memory.bytes_store, List.append_assoc,
    List.getElem?_append_right (by rw [hlen]; omega), hlen, Nat.add_sub_cancel_left,
    List.getElem?_append_left hk]

/-- A store leaves every byte of the image outside the stored ones alone. -/
theorem Memory.read_store_other {m : Memory} (h : m.wf = true) (a b : Nat) (new : List Byte)
    (hb : b < m.length) (hout : b < a ∨ a + new.length ≤ b) : (m.store a new).read b = m.read b := by
  have hlen := Memory.length_filled m a
  have hbytes : b < m.bytes.length := by simpa using hb
  rw [Memory.read_of_wf (Memory.store_wf m a new), Memory.read_of_wf h, Memory.bytes_store, List.append_assoc]
  rcases hout with hlt | hge
  · rw [List.getElem?_append_left (by omega), List.getElem?_take_of_lt hlt, List.getElem?_append_left hbytes]
  · rw [List.getElem?_append_right (by omega), hlen, List.getElem?_append_right (by omega), List.getElem?_drop,
      show a + new.length + (b - a - new.length) = b by omega, List.getElem?_append_left hbytes]

end Sys2Proof.Machine
end

