-- ==== Sys2Proof/Laws/State.lean ====
section
/-! SUPPORT. One lemma per field per state update: what the field is afterwards. No later proof unfolds an update. -/

namespace Sys2Proof.Machine

variable (s : State)

/-! ### `State.setAcc` -/

@[simp] theorem State.setAcc_cfg (v : Byte) : (s.setAcc v).cfg = s.cfg := rfl

@[simp] theorem State.setAcc_image (v : Byte) : (s.setAcc v).image = s.image := rfl

@[simp] theorem State.setAcc_maxCycles (v : Byte) : (s.setAcc v).maxCycles = s.maxCycles := rfl

@[simp] theorem State.setAcc_acc (v : Byte) : (s.setAcc v).acc = v := rfl

@[simp] theorem State.setAcc_regs (v : Byte) : (s.setAcc v).regs = s.regs := rfl

@[simp] theorem State.setAcc_z (v : Byte) : (s.setAcc v).z = s.z := rfl

@[simp] theorem State.setAcc_c (v : Byte) : (s.setAcc v).c = s.c := rfl

@[simp] theorem State.setAcc_pc (v : Byte) : (s.setAcc v).pc = s.pc := rfl

@[simp] theorem State.setAcc_cycles (v : Byte) : (s.setAcc v).cycles = s.cycles := rfl

@[simp] theorem State.setAcc_halted (v : Byte) : (s.setAcc v).halted = s.halted := rfl

@[simp] theorem State.setAcc_termination (v : Byte) : (s.setAcc v).termination = s.termination := rfl

/-! ### `State.setFlags` -/

@[simp] theorem State.setFlags_cfg (z c : Bool) : (s.setFlags z c).cfg = s.cfg := rfl

@[simp] theorem State.setFlags_image (z c : Bool) : (s.setFlags z c).image = s.image := rfl

@[simp] theorem State.setFlags_maxCycles (z c : Bool) : (s.setFlags z c).maxCycles = s.maxCycles := rfl

@[simp] theorem State.setFlags_acc (z c : Bool) : (s.setFlags z c).acc = s.acc := rfl

@[simp] theorem State.setFlags_regs (z c : Bool) : (s.setFlags z c).regs = s.regs := rfl

@[simp] theorem State.setFlags_z (z c : Bool) : (s.setFlags z c).z = z := rfl

@[simp] theorem State.setFlags_c (z c : Bool) : (s.setFlags z c).c = c := rfl

@[simp] theorem State.setFlags_pc (z c : Bool) : (s.setFlags z c).pc = s.pc := rfl

@[simp] theorem State.setFlags_cycles (z c : Bool) : (s.setFlags z c).cycles = s.cycles := rfl

@[simp] theorem State.setFlags_halted (z c : Bool) : (s.setFlags z c).halted = s.halted := rfl

@[simp] theorem State.setFlags_termination (z c : Bool) : (s.setFlags z c).termination = s.termination := rfl

/-! ### `State.setReg` -/

@[simp] theorem State.setReg_cfg (r v : Byte) : (s.setReg r v).cfg = s.cfg := rfl

@[simp] theorem State.setReg_image (r v : Byte) : (s.setReg r v).image = s.image := rfl

@[simp] theorem State.setReg_maxCycles (r v : Byte) : (s.setReg r v).maxCycles = s.maxCycles := rfl

@[simp] theorem State.setReg_acc (r v : Byte) : (s.setReg r v).acc = s.acc := rfl

@[simp] theorem State.setReg_regs (r v : Byte) : (s.setReg r v).regs = s.regs.set r.toNat v := rfl

@[simp] theorem State.setReg_z (r v : Byte) : (s.setReg r v).z = s.z := rfl

@[simp] theorem State.setReg_c (r v : Byte) : (s.setReg r v).c = s.c := rfl

@[simp] theorem State.setReg_pc (r v : Byte) : (s.setReg r v).pc = s.pc := rfl

@[simp] theorem State.setReg_cycles (r v : Byte) : (s.setReg r v).cycles = s.cycles := rfl

@[simp] theorem State.setReg_halted (r v : Byte) : (s.setReg r v).halted = s.halted := rfl

@[simp] theorem State.setReg_termination (r v : Byte) : (s.setReg r v).termination = s.termination := rfl

/-! ### `State.setHalted` -/

@[simp] theorem State.setHalted_cfg : (s.setHalted).cfg = s.cfg := rfl

@[simp] theorem State.setHalted_image : (s.setHalted).image = s.image := rfl

@[simp] theorem State.setHalted_maxCycles : (s.setHalted).maxCycles = s.maxCycles := rfl

@[simp] theorem State.setHalted_acc : (s.setHalted).acc = s.acc := rfl

@[simp] theorem State.setHalted_regs : (s.setHalted).regs = s.regs := rfl

@[simp] theorem State.setHalted_z : (s.setHalted).z = s.z := rfl

@[simp] theorem State.setHalted_c : (s.setHalted).c = s.c := rfl

@[simp] theorem State.setHalted_pc : (s.setHalted).pc = s.pc := rfl

@[simp] theorem State.setHalted_cycles : (s.setHalted).cycles = s.cycles := rfl

@[simp] theorem State.setHalted_halted : (s.setHalted).halted = true := rfl

@[simp] theorem State.setHalted_termination : (s.setHalted).termination = s.termination := rfl

/-! ### `State.advance` -/

@[simp] theorem State.advance_cfg (target : Int) : (s.advance target).cfg = s.cfg := rfl

@[simp] theorem State.advance_image (target : Int) : (s.advance target).image = s.image := rfl

@[simp] theorem State.advance_maxCycles (target : Int) : (s.advance target).maxCycles = s.maxCycles := rfl

@[simp] theorem State.advance_acc (target : Int) : (s.advance target).acc = s.acc := rfl

@[simp] theorem State.advance_regs (target : Int) : (s.advance target).regs = s.regs := rfl

@[simp] theorem State.advance_z (target : Int) : (s.advance target).z = s.z := rfl

@[simp] theorem State.advance_c (target : Int) : (s.advance target).c = s.c := rfl

@[simp] theorem State.advance_pc (target : Int) : (s.advance target).pc = target := rfl

@[simp] theorem State.advance_cycles (target : Int) : (s.advance target).cycles = s.cycles + 1 := rfl

@[simp] theorem State.advance_halted (target : Int) : (s.advance target).halted = s.halted := rfl

@[simp] theorem State.advance_termination (target : Int) : (s.advance target).termination = s.termination := rfl

/-! ### `State.ended` -/

@[simp] theorem State.ended_cfg (t : Termination) : (s.ended t).cfg = s.cfg := rfl

@[simp] theorem State.ended_image (t : Termination) : (s.ended t).image = s.image := rfl

@[simp] theorem State.ended_maxCycles (t : Termination) : (s.ended t).maxCycles = s.maxCycles := rfl

@[simp] theorem State.ended_acc (t : Termination) : (s.ended t).acc = s.acc := rfl

@[simp] theorem State.ended_regs (t : Termination) : (s.ended t).regs = s.regs := rfl

@[simp] theorem State.ended_z (t : Termination) : (s.ended t).z = s.z := rfl

@[simp] theorem State.ended_c (t : Termination) : (s.ended t).c = s.c := rfl

@[simp] theorem State.ended_pc (t : Termination) : (s.ended t).pc = s.pc := rfl

@[simp] theorem State.ended_cycles (t : Termination) : (s.ended t).cycles = s.cycles := rfl

@[simp] theorem State.ended_halted (t : Termination) : (s.ended t).halted = s.halted := rfl

@[simp] theorem State.ended_termination (t : Termination) : (s.ended t).termination = some t := rfl

/-! ### `State.setArith` -/

@[simp] theorem State.setArith_cfg (r : Byte) (c : Bool) : (s.setArith r c).cfg = s.cfg := rfl

@[simp] theorem State.setArith_image (r : Byte) (c : Bool) : (s.setArith r c).image = s.image := rfl

@[simp] theorem State.setArith_maxCycles (r : Byte) (c : Bool) : (s.setArith r c).maxCycles = s.maxCycles := rfl

@[simp] theorem State.setArith_acc (r : Byte) (c : Bool) : (s.setArith r c).acc = r := rfl

@[simp] theorem State.setArith_regs (r : Byte) (c : Bool) : (s.setArith r c).regs = s.regs := rfl

@[simp] theorem State.setArith_z (r : Byte) (c : Bool) : (s.setArith r c).z = zeroFlag r := rfl

@[simp] theorem State.setArith_c (r : Byte) (c : Bool) : (s.setArith r c).c = c := rfl

@[simp] theorem State.setArith_pc (r : Byte) (c : Bool) : (s.setArith r c).pc = s.pc := rfl

@[simp] theorem State.setArith_cycles (r : Byte) (c : Bool) : (s.setArith r c).cycles = s.cycles := rfl

@[simp] theorem State.setArith_halted (r : Byte) (c : Bool) : (s.setArith r c).halted = s.halted := rfl

@[simp] theorem State.setArith_termination (r : Byte) (c : Bool) : (s.setArith r c).termination = s.termination := rfl

/-! ### `State.launch` -/

variable (cfg : Config) (bytes : List Byte) (maxCycles : Nat)

@[simp] theorem State.launch_cfg : (State.launch cfg bytes maxCycles).cfg = cfg := rfl

@[simp] theorem State.launch_image : (State.launch cfg bytes maxCycles).image = Memory.ofBytes bytes := rfl

@[simp] theorem State.launch_maxCycles : (State.launch cfg bytes maxCycles).maxCycles = maxCycles := rfl

@[simp] theorem State.launch_acc : (State.launch cfg bytes maxCycles).acc = 0 := rfl

@[simp] theorem State.launch_regs : (State.launch cfg bytes maxCycles).regs = List.replicate cfg.numRegs 0 := rfl

@[simp] theorem State.launch_z : (State.launch cfg bytes maxCycles).z = false := rfl

@[simp] theorem State.launch_c : (State.launch cfg bytes maxCycles).c = false := rfl

@[simp] theorem State.launch_pc : (State.launch cfg bytes maxCycles).pc = 0 := rfl

@[simp] theorem State.launch_cycles : (State.launch cfg bytes maxCycles).cycles = 0 := rfl

@[simp] theorem State.launch_halted : (State.launch cfg bytes maxCycles).halted = false := rfl

@[simp] theorem State.launch_termination : (State.launch cfg bytes maxCycles).termination = none := rfl

/-! ### `State.engine`: what it forgets -/

@[simp] theorem State.ended_engine (t : Termination) : (s.ended t).engine = s.engine := rfl

@[simp] theorem State.launch_engine : (State.launch cfg bytes maxCycles).engine = Engine.reset cfg := rfl

end Sys2Proof.Machine
end

