-- ==== Sys2Proof/Laws/Operations.lean ====
section
/-! SUPPORT. Once for each shared operation, everything it can do. The provers cite these instead of unfolding. -/

namespace Sys2Proof.Machine

variable {s t : State} {k : FaultKind}

/-! ### Raising a fault -/

theorem raise_eq_next (h : s.raise k = .next t) : t = s.ended (.fault s.pc k) := by
  cases h
  rfl

/-! ### `MemRead` -/

theorem memRead_outside {a : Int} (h : a < 0 ∨ (s.image.length : Int) ≤ a) (f : Byte → Result) :
    s.memRead a f = s.raise .pcOutOfBounds := by
  simp [State.memRead, h]

theorem memRead_inside {a : Int} {b : Byte} (h0 : 0 ≤ a) (hN : a < s.image.length)
    (hb : s.image.read a.toNat = some b) (f : Byte → Result) : s.memRead a f = f b := by
  have hin : ¬(a < 0 ∨ (s.image.length : Int) ≤ a) := by omega
  simp [State.memRead, hin, hb]

/-- What a read that answers a next state did: it raised, or it went on with the byte at an address of the image. -/
theorem memRead_cases {a : Int} {f : Byte → Result} (h : s.memRead a f = .next t) :
    ((a < 0 ∨ (s.image.length : Int) ≤ a) ∧ t = s.ended (.fault s.pc .pcOutOfBounds)) ∨
    ∃ b, 0 ≤ a ∧ a < s.image.length ∧ s.image.read a.toNat = some b ∧ f b = .next t := by
  unfold State.memRead at h
  split at h
  · exact .inl ⟨‹_›, raise_eq_next h⟩
  · split at h
    · exact .inr ⟨_, by omega, by omega, ‹_›, h⟩
    · cases h

/-- In canonical form a read inside the image finds a byte. -/
theorem read_exists {a : Int} (hwf : s.image.wf = true) (h0 : 0 ≤ a) (hN : a < s.image.length) :
    ∃ b, s.image.read a.toNat = some b := by
  have hlt : a.toNat < s.image.bytes.length := by rw [Memory.length_bytes]; omega
  exact ⟨s.image.bytes[a.toNat], by rw [Memory.read_of_wf hwf, List.getElem?_eq_getElem hlt]⟩

/-! ### The register port -/

theorem withReg_outside {r : Byte} (h : s.cfg.numRegs ≤ r.toNat) (f : Byte → Result) :
    s.withReg r f = s.raise .invalidRegisterIndex := by
  simp [State.withReg, zext8, h]

theorem withReg_inside {r v : Byte} (h : r.toNat < s.cfg.numRegs) (hv : s.regs[r.toNat]? = some v)
    (f : Byte → Result) : s.withReg r f = f v := by
  simp [State.withReg, zext8, Nat.not_le.mpr h, hv]

theorem withReg_cases {r : Byte} {f : Byte → Result} (h : s.withReg r f = .next t) :
    (s.cfg.numRegs ≤ r.toNat ∧ t = s.ended (.fault s.pc .invalidRegisterIndex)) ∨
    ∃ v, r.toNat < s.cfg.numRegs ∧ s.regs[r.toNat]? = some v ∧ f v = .next t := by
  by_cases hr : s.cfg.numRegs ≤ r.toNat
  · rw [withReg_outside hr] at h
    exact .inl ⟨hr, raise_eq_next h⟩
  · cases hv : s.regs[r.toNat]? with
    | none => simp [State.withReg, zext8, hr, hv] at h
    | some v =>
      rw [withReg_inside (Nat.not_le.mp hr) hv] at h
      exact .inr ⟨v, Nat.not_le.mp hr, rfl, h⟩

/-! ### When the engine steps -/

theorem endReason_eq_none : s.endReason = none ↔ s.halted = false ∧ s.cycles < s.maxCycles := by
  unfold State.endReason
  split
  · simp_all
  · split <;> simp_all

theorem endReason_halted (h : s.halted = true) : s.endReason = some .halted := by
  simp [State.endReason, h]

theorem endReason_budget (h : s.halted = false) (hc : s.maxCycles ≤ s.cycles) :
    s.endReason = some .cycleLimitReached := by
  simp [State.endReason, h, hc]

/-! ### The invariant, clause by clause -/

theorem State.wf_iff : s.wf = true ↔
    s.cfg.wellFormed = true ∧ s.image.wf = true ∧ s.regs.length = s.cfg.numRegs ∧ s.cycles ≤ s.maxCycles ∧
      (-128 ≤ s.pc ∧ s.pc ≤ (s.image.length : Int) + 127) ∧ s.recordAgrees = true := by
  simp [State.wf, and_assoc]

/-! ### The meanings that go through the register port -/

theorem exec_put (r : Byte) : exec (.put r) s =
    s.withReg r fun _ => .next ((s.setReg r s.acc).advance (s.nextPc .put)) := rfl

theorem exec_get (r : Byte) : exec (.get r) s =
    s.withReg r fun v => .next ((s.setAcc v).advance (s.nextPc .get)) := rfl

theorem exec_add (r : Byte) : exec (.add r) s =
    s.withReg r fun x =>
      .next ((s.setArith (aluAdd s.acc x).1 (aluAdd s.acc x).2).advance (s.nextPc .add)) := rfl

/-! ### Meanings: what completing one can write -/

/-- An instruction that completes: everything it can write, and what it leaves alone. -/
structure Completes (i : Instr) (s t : State) : Prop where
  cfg : t.cfg = s.cfg
  image : t.image = s.image
  maxCycles : t.maxCycles = s.maxCycles
  regsLength : t.regs.length = s.regs.length
  cycles : t.cycles = s.cycles + 1
  termination : t.termination = s.termination
  pc : t.pc = s.pc + (i.width : Int) ∨
    (i.width = 2 ∧ ∃ off, t.pc = branchTarget s.cfg s.pc (s.pc + 2) off)
  halted : t.halted = (s.halted || decide (i = .halt))

/-- Every meaning that completes ends in `State.advance`; what is left to say is what it wrote before. -/
theorem completes_advance {i : Instr} {u : State} {p : Int} (hcfg : u.cfg = s.cfg) (himage : u.image = s.image)
    (hmax : u.maxCycles = s.maxCycles) (hregs : u.regs.length = s.regs.length) (hcycles : u.cycles = s.cycles)
    (hterm : u.termination = s.termination) (hhalted : u.halted = (s.halted || decide (i = .halt)))
    (hpc : p = s.pc + (i.width : Int) ∨ (i.width = 2 ∧ ∃ off, p = branchTarget s.cfg s.pc (s.pc + 2) off)) :
    Completes i s (u.advance p) where
  cfg := hcfg
  image := himage
  maxCycles := hmax
  regsLength := hregs
  cycles := congrArg (· + 1) hcycles
  termination := hterm
  pc := hpc
  halted := hhalted

/-- Where a branch goes: past itself, or to the target of some offset. -/
theorem branchTo_cases {m : Mnemonic} {taken : Bool} {off : Byte} (hm : m.width = 2) :
    s.branchTo m taken off = s.pc + (m.width : Int) ∨
      (m.width = 2 ∧ ∃ off', s.branchTo m taken off = branchTarget s.cfg s.pc (s.pc + 2) off') := by
  cases taken with
  | false => exact .inl rfl
  | true => exact .inr ⟨hm, off, by simp [State.branchTo, State.nextPc, hm]⟩

/-- What a meaning that answers a next state did: it raised a fault at its register port, or it completed. -/
theorem exec_cases {i : Instr} (h : exec i s = .next t) :
    t = s.ended (.fault s.pc .invalidRegisterIndex) ∨ Completes i s t := by
  cases i with
  | put r =>
    rcases withReg_cases h with ⟨-, ht⟩ | ⟨v, -, -, ht⟩
    · exact .inl ht
    · cases ht
      exact .inr (completes_advance rfl rfl rfl (List.length_set ..) rfl rfl (Bool.or_false _).symm (.inl rfl))
  | get r =>
    rcases withReg_cases h with ⟨-, ht⟩ | ⟨v, -, -, ht⟩
    · exact .inl ht
    · cases ht
      exact .inr (completes_advance rfl rfl rfl rfl rfl rfl (Bool.or_false _).symm (.inl rfl))
  | add r =>
    rcases withReg_cases h with ⟨-, ht⟩ | ⟨v, -, -, ht⟩
    · exact .inl ht
    · cases ht
      exact .inr (completes_advance rfl rfl rfl rfl rfl rfl (Bool.or_false _).symm (.inl rfl))
  | bz off =>
    cases h
    exact .inr (completes_advance rfl rfl rfl rfl rfl rfl (Bool.or_false _).symm (branchTo_cases rfl))
  | bcs off =>
    cases h
    exact .inr (completes_advance rfl rfl rfl rfl rfl rfl (Bool.or_false _).symm (branchTo_cases rfl))
  | jmpi off =>
    cases h
    exact .inr (completes_advance rfl rfl rfl rfl rfl rfl (Bool.or_false _).symm (branchTo_cases rfl))
  | halt =>
    cases h
    exact .inr (completes_advance rfl rfl rfl rfl rfl rfl (Bool.or_true _).symm (.inl rfl))
  | set b =>
    cases h
    exact .inr (completes_advance rfl rfl rfl rfl rfl rfl (Bool.or_false _).symm (.inl rfl))
  | addi b =>
    cases h
    exact .inr (completes_advance rfl rfl rfl rfl rfl rfl (Bool.or_false _).symm (.inl rfl))
  | subi b =>
    cases h
    exact .inr (completes_advance rfl rfl rfl rfl rfl rfl (Bool.or_false _).symm (.inl rfl))
  | nop =>
    cases h
    exact .inr (completes_advance rfl rfl rfl rfl rfl rfl (Bool.or_false _).symm (.inl rfl))

/-! ### Fetch -/

/-- What a fetch that answers a next state did: it raised one of the two fetch faults, or it went on with the
instruction whose bytes stand at `pc`. -/
theorem fetch_cases {f : Instr → Result} (h : s.fetch f = .next t) :
    (∃ k, t = s.ended (.fault s.pc k)) ∨
    ∃ i, 0 ≤ s.pc ∧ s.pc + (i.width : Int) ≤ s.image.length ∧ f i = .next t := by
  rcases memRead_cases h with ⟨-, ht⟩ | ⟨op, h0, hN, -, h⟩
  · exact .inl ⟨_, ht⟩
  · cases hm : decodeOpcode s.cfg.opc op with
    | none =>
      simp only [hm] at h
      exact .inl ⟨_, raise_eq_next h⟩
    | some m =>
      simp only [hm] at h
      cases hk : m.operandKind with
      | none =>
        simp only [hk] at h
        refine .inr ⟨_, h0, ?_, h⟩
        cases m <;> simp_all [Mnemonic.operandKind, Mnemonic.instr, Instr.width, Instr.mnemonic, Mnemonic.width]
      | some kind =>
        simp only [hk] at h
        rcases memRead_cases h with ⟨-, ht⟩ | ⟨b, -, hN', -, h⟩
        · exact .inl ⟨_, ht⟩
        · refine .inr ⟨_, h0, ?_, h⟩
          cases m <;> simp_all [Mnemonic.operandKind, Mnemonic.instr, Instr.width, Instr.mnemonic, Mnemonic.width] <;>
            omega

/-! ### One step -/

/-- Everything a step that answers a next state can do: nothing, because the run has ended; end the run, because the
engine cannot step; take a fault; or complete one instruction. -/
theorem step_cases (h : step s = .next t) :
    (s.termination.isSome = true ∧ t = s) ∨
    (s.termination = none ∧ ∃ r, s.endReason = some r ∧ t = s.ended r) ∨
    (s.termination = none ∧ s.endReason = none ∧
      ((∃ k, t = s.ended (.fault s.pc k)) ∨
        ∃ i, 0 ≤ s.pc ∧ s.pc + (i.width : Int) ≤ s.image.length ∧ Completes i s t)) := by
  unfold step at h
  split at h
  · rename_i r hr
    cases h
    exact .inl ⟨by simp [hr], rfl⟩
  · rename_i hnone
    split at h
    · rename_i r hr
      cases h
      exact .inr (.inl ⟨hnone, r, hr, rfl⟩)
    · rename_i hgo
      refine .inr (.inr ⟨hnone, hgo, ?_⟩)
      rcases fetch_cases h with hk | ⟨i, h0, hN, hi⟩
      · exact .inl hk
      · rcases exec_cases hi with ht | hc
        · exact .inl ⟨_, ht⟩
        · exact .inr ⟨i, h0, hN, hc⟩

end Sys2Proof.Machine
end

