-- ==== Sys2Proof/Laws/PerInstr.lean ====
section
/-! SUPPORT. A fact about every instruction as syntax, one lemma per constructor: the encoder emits as many bytes as the
instruction's width (spec/30_encoding.md R67, R83). -/

namespace Sys2Proof.Laws.EncodedLength

def Statement (i : Instr) : Prop := ∀ o : OpcodeMap, (encode o i).length = i.width

theorem set (imm : Byte) : Statement (.set imm) := fun _ => rfl
theorem put (reg : Byte) : Statement (.put reg) := fun _ => rfl
theorem get (reg : Byte) : Statement (.get reg) := fun _ => rfl
theorem add (reg : Byte) : Statement (.add reg) := fun _ => rfl
theorem addi (imm : Byte) : Statement (.addi imm) := fun _ => rfl
theorem subi (imm : Byte) : Statement (.subi imm) := fun _ => rfl
theorem nop : Statement .nop := fun _ => rfl
theorem bz (off : Byte) : Statement (.bz off) := fun _ => rfl
theorem bcs (off : Byte) : Statement (.bcs off) := fun _ => rfl
theorem jmpi (off : Byte) : Statement (.jmpi off) := fun _ => rfl
theorem halt : Statement .halt := fun _ => rfl

end Sys2Proof.Laws.EncodedLength
end

