-- ==== Sys2Proof/Laws/Runs.lean ====
section
/-! SUPPORT. Runs, one step at a time, and the one induction over them. -/

namespace Sys2Proof

open Sys2Proof.Machine

variable {s t u : State} {n m : Nat}

@[simp] theorem runsTo_zero : RunsTo 0 s t ↔ t = s :=
  ⟨fun h => by cases h; rfl, fun h => h ▸ rfl⟩

theorem runsTo_succ : RunsTo (n + 1) s t ↔ ∃ u, step s = .next u ∧ RunsTo n u t := by
  unfold RunsTo
  rw [runFor]
  cases step s with
  | next u => exact ⟨fun h => ⟨u, rfl, h⟩, fun ⟨_, hu, h⟩ => by cases hu; exact h⟩
  | fault r => exact ⟨fun h => (by cases h), fun ⟨_, hu, _⟩ => (by cases hu)⟩
  | refused r => exact ⟨fun h => (by cases h), fun ⟨_, hu, _⟩ => (by cases hu)⟩

/-- The runs of this package are the host's. -/
theorem runFor_eq_core_run (n : Nat) (s : State) : runFor n s = Host.Core.run core n s := by
  induction n generalizing s with
  | zero => rfl
  | succ n ih =>
    rw [runFor]
    refine Eq.trans ?_ (Host.Core.run.eq_2 core s n).symm
    cases h : step s with
    | next t => exact (ih t).trans (by rw [show core.step s = .next t from h])
    | fault r => rw [show core.step s = .fault r from h]; rfl
    | refused r => rw [show core.step s = .refused r from h]; rfl

/-- A run is deterministic. -/
theorem runsTo_unique (ht : RunsTo n s t) (hu : RunsTo n s u) : t = u := by
  unfold RunsTo at ht hu
  rw [ht] at hu
  cases hu
  rfl

/-- Two stretches of a run make one. -/
theorem runsTo_add (h : RunsTo n s t) (h' : RunsTo m t u) : RunsTo (n + m) s u := by
  induction n generalizing s with
  | zero =>
    rw [runsTo_zero] at h
    subst h
    rwa [Nat.zero_add]
  | succ n ih =>
    obtain ⟨v, hv, h⟩ := runsTo_succ.mp h
    rw [Nat.add_right_comm]
    exact runsTo_succ.mpr ⟨v, hv, ih h⟩

/-- What a step keeps, every state of a run has. -/
theorem runsTo_induction {P : State → Prop} (hstep : ∀ s t, P s → step s = .next t → P t) (hs : P s)
    (h : RunsTo n s t) : P t := by
  induction n generalizing s with
  | zero =>
    rw [runsTo_zero] at h
    exact h ▸ hs
  | succ n ih =>
    obtain ⟨u, hu, h⟩ := runsTo_succ.mp h
    exact ih (hstep s u hs hu) h

/-- An engine that can step fetches and executes (spec/40_cycle.md R100, R102). -/
theorem step_of_canStep (h : CanStep s) : step s = s.fetch fun i => exec i s := by
  obtain ⟨hrec, hgo⟩ := h
  simp [step, hrec, endReason_eq_none.mpr hgo]

end Sys2Proof
end

