-- ==== Sys2Proof/Tests/Slice0.lean ====
section
/-! SUPPORT. Small tests. Expected results come from spec/95_test_vectors.md (named in each comment) or are words written
out from spec/30_encoding.md R66 and R70. After them, for every obligation with hypotheses, a state and operands that
meet them. -/

namespace Sys2Proof.Tests

open Sys2Proof Sys2Proof.Machine

/-- A run of an image with the default parameters and a budget of 10. -/
def start (bytes : List Byte) : State := State.launch Config.defaults bytes 10

/-- The same with another accumulator and flags. -/
def withAcc (s : State) (acc : Byte) (z c : Bool) : State := { s with acc := acc, z := z, c := c }

/-- ACC, Z, C, pc and CYCLES after one step. -/
def after (s : State) : Option (Byte × Bool × Bool × Int × Nat) :=
  (nextOf (step s)).map fun t => (t.acc, t.z, t.c, t.pc, t.cycles)

/-- The termination record after one step. -/
def recordAfter (s : State) : Option Termination := (nextOf (step s)).bind fun t => t.termination

/-! ### Well-formedness: an ill-formed term for each check -/

theorem test_put_index_checked : Instr.wellFormed 4 (.put 4) = false := by decide
theorem test_get_index_checked : Instr.wellFormed 4 (.get 255) = false := by decide
theorem test_add_index_checked : Instr.wellFormed 4 (.add 4) = false := by decide
theorem test_last_register_accepted : Instr.wellFormed 4 (.put 3) = true := by decide
theorem test_shared_opcode_refused :
    OpcodeMap.injective { OpcodeMap.ref with opHalt := 0x07 } = false := by decide
theorem test_three_registers_refused : Config.wellFormed { Config.defaults with numRegs := 3 } = false := by decide
theorem test_bad_opcode_map_refused :
    Config.wellFormed { Config.defaults with opc := { OpcodeMap.ref with opSet := 0x02 } } = false := by decide
theorem test_image_with_gap_refused : Memory.wf [(0, 1), (2, 1)] = false := by decide
theorem test_image_out_of_order_refused : Memory.wf [(1, 1), (0, 1)] = false := by decide
theorem test_short_register_file_refused : State.wf { start [] with regs := [0, 0, 0] } = false := by decide
theorem test_overrun_budget_refused : State.wf { start [] with cycles := 11 } = false := by decide
theorem test_far_pc_refused : State.wf { start [] with pc := 128 } = false := by decide
theorem test_wrong_record_refused : State.wf { start [] with termination := some .halted } = false := by decide

/-! ### Decoding: a word of every instruction, bit by bit from R66 and R70 -/

theorem test_decode_set : decode OpcodeMap.ref [0b00000001, 0b11001000] = .ok (.set 200, []) := by decide
theorem test_decode_put : decode OpcodeMap.ref [0b00000010, 0b00000011] = .ok (.put 3, []) := by decide
theorem test_decode_get : decode OpcodeMap.ref [0b00000011, 0b00000001] = .ok (.get 1, []) := by decide
theorem test_decode_add : decode OpcodeMap.ref [0b00000100, 0b00000011] = .ok (.add 3, []) := by decide
theorem test_decode_addi : decode OpcodeMap.ref [0b00000101, 0b11111111] = .ok (.addi 255, []) := by decide
theorem test_decode_subi : decode OpcodeMap.ref [0b00000110, 0b00000001] = .ok (.subi 1, []) := by decide
theorem test_decode_nop : decode OpcodeMap.ref [0b00000111, 0b00000001] = .ok (.nop, [1]) := by decide
theorem test_decode_bz : decode OpcodeMap.ref [0b00001000, 0b00010110] = .ok (.bz 22, []) := by decide
theorem test_decode_bcs : decode OpcodeMap.ref [0b00001001, 0b00000010] = .ok (.bcs 2, []) := by decide
theorem test_decode_jmpi : decode OpcodeMap.ref [0b00001010, 0b11101101] = .ok (.jmpi 0xED, []) := by decide
theorem test_decode_halt : decode OpcodeMap.ref [0b00001011] = .ok (.halt, []) := by decide
/-- 95, section 2.1. -/
theorem test_decode_rejects_by_name :
    decode OpcodeMap.ref [0x0C, 0] = .error (.invalidOpcode 0x0C) ∧ decode OpcodeMap.ref [] = .error .noOpcode ∧
    decode OpcodeMap.ref [0x01] = .error (.noOperand .set) := by decide
/-- spec/opcode_table.json: match 0x0A00 with mask 0xFF00, and match 0x0B with mask 0xFF. -/
theorem test_table_words :
    decodeTableWord 16 0x0AED = some (.jmpi 0xED) ∧ decodeTableWord 8 0x0B = some .halt ∧
    decodeTableWord 8 0x0C = none := by decide

/-! ### Vectors of spec/95_test_vectors.md -/

/-- 95, section 2.2, first and second rows. -/
theorem test_set_keeps_flags :
    after (withAcc (start [1, 0]) 5 false true) = some (0, false, true, 2, 1) ∧
    after (withAcc (start [1, 255]) 0 true false) = some (255, true, false, 2, 1) := by decide
/-- 95, section 2.2, PUT R3. -/
theorem test_put_writes_its_register :
    (nextOf (step (withAcc (start [2, 3]) 0x4E true false))).map (·.regs) = some [0, 0, 0, 0x4E] := by decide
/-- 95, section 2.2, PUT with 4. -/
theorem test_put_bad_index : recordAfter (start [2, 4]) = some (.fault 0 .invalidRegisterIndex) := by decide
/-- 95, W6. -/
theorem test_get_zero_keeps_flags : after (withAcc (start [3, 1]) 9 false true) = some (0, false, true, 2, 1) := by decide
/-- 95, section 2.2, GET with 4 of eight registers. -/
theorem test_get_of_eight_registers :
    after { start [3, 4] with cfg := { Config.defaults with numRegs := 8 }, regs := [0, 0, 0, 0, 9, 0, 0, 0] } =
      some (9, false, false, 2, 1) := by decide
/-- 95, section 2.3, rows 200 + 200 and 1 + 1 with C set before. -/
theorem test_add :
    after { withAcc (start [4, 3]) 200 true false with regs := [0, 0, 0, 200] } = some (144, false, true, 2, 1) ∧
    after { withAcc (start [4, 0]) 1 true true with regs := [1, 0, 0, 0] } = some (2, false, false, 2, 1) := by decide
/-- 95, section 2.3, rows 255 + 1 and 0 + 0 with C set before. -/
theorem test_addi :
    after (withAcc (start [5, 1]) 255 false false) = some (0, true, true, 2, 1) ∧
    after (withAcc (start [5, 0]) 0 false true) = some (0, true, false, 2, 1) := by decide
/-- 95, section 2.4, row 3 - 5, both polarities. -/
theorem test_subi_borrow :
    after (withAcc (start [6, 5]) 3 true false) = some (254, false, true, 2, 1) ∧
    after { withAcc (start [6, 5]) 3 true true with cfg := { Config.defaults with subiCarry := .notBorrow } } =
      some (254, false, false, 2, 1) := by decide
/-- 95, section 2.4, row 5 - 5. -/
theorem test_subi_equal : after (withAcc (start [6, 5]) 5 false true) = some (0, true, false, 2, 1) := by decide
/-- 95, section 2.5, first row, KEEP and CLEAR. -/
theorem test_nop :
    after (withAcc (start [7]) 0 false true) = some (0, true, true, 1, 1) ∧
    after { withAcc (start [7]) 0 false true with cfg := { Config.defaults with nopCarry := .clear } } =
      some (0, true, false, 1, 1) := by decide
/-- 95, section 2.6, p = 4, b = 0xFF, taken under AFTER and SELF; and untaken. -/
theorem test_bz :
    after (withAcc { start [0, 0, 0, 0, 8, 0xFF] with pc := 4 } 0 true false) = some (0, true, false, 5, 1) ∧
    after { withAcc { start [0, 0, 0, 0, 8, 0xFF] with pc := 4 } 0 true false with
      cfg := { Config.defaults with branchBase := .self } } = some (0, true, false, 3, 1) := by decide
theorem test_bz_untaken :
    after (withAcc { start [0, 0, 0, 0, 8, 0xFF] with pc := 4 } 0 false true) = some (0, false, true, 6, 1) := by decide
/-- 95, section 2.6, p = 10, b = 0x80 and untaken. -/
theorem test_bcs :
    after (withAcc { start [0, 0, 0, 0, 0, 0, 0, 0, 0, 0, 9, 0x80] with pc := 10 } 0 false true) =
      some (0, false, true, -116, 1) ∧
    after (withAcc { start [0, 0, 0, 0, 0, 0, 0, 0, 0, 0, 9, 0x80] with pc := 10 } 0 true false) =
      some (0, true, false, 12, 1) := by decide
/-- 95, W5 and section 2.6: a one-instruction loop. -/
theorem test_jmpi_to_itself : after (start [0x0A, 0xFE]) = some (0, false, false, 0, 1) := by decide
/-- 95, section 2.6: image `0A 80`, the second step. -/
theorem test_jmpi_out_of_the_image :
    recordAfter { start [0x0A, 0x80] with pc := -126, cycles := 1 } = some (.fault (-126) .pcOutOfBounds) := by decide
/-- 95, section 2.7, first row. -/
theorem test_halt :
    (nextOf (step (start [0x0B]))).map (fun t => (t.halted, t.pc, t.cycles, t.termination)) =
      some (true, 1, 1, none) ∧
    runImage Config.defaults [0x0B] 1 = (⟨0, [0, 0, 0, 0], false, false, 1, 1⟩, .halted) := by decide
/-- 95, W4 and section 2.1. -/
theorem test_fetch_faults :
    recordAfter (start [1]) = some (.fault 0 .pcOutOfBounds) ∧
    recordAfter (start [0]) = some (.fault 0 .invalidOpcode) := by decide
/-- spec/60_exceptions.md R170. -/
theorem test_fault_codes :
    (FaultKind.invalidOpcode.code, FaultKind.pcOutOfBounds.code, FaultKind.invalidRegisterIndex.code) = (1, 2, 3) := by
  decide
/-- 95, section 2.7, row `0B` with no budget. -/
theorem test_no_budget : recordAfter (State.launch Config.defaults [0x0B] 0) = some .cycleLimitReached := by decide
/-- What a run reports (R20), and a hardware PC of 8 bits at -1 (decision D7). -/
theorem test_outputs :
    State.outputs { start [] with termination := some .halted } = some (⟨0, [0, 0, 0, 0], false, false, 0, 0⟩, .halted) ∧
    State.boardPc { start [] with pc := -1, cfg := { Config.defaults with pcWidth := some 8 } } = some 255 := by decide

/-! ### The assembler -/

/-- 95, section 2.8: `BZ -128`. -/
theorem test_assemble_offset :
    assemble Config.defaults (.other "m") ['B', 'Z', ' ', '-', '1', '2', '8'] = .ok [0x08, 0x80] := by decide
/-- 95, section 2.8: `BZ 128`, `PUT R4`, `FOO`. -/
theorem test_assemble_errors :
    assemble Config.defaults (.other "m") ['B', 'Z', ' ', '1', '2', '8'] = .error ⟨1, .offsetOutOfRange⟩ ∧
    assemble Config.defaults (.other "m") ['P', 'U', 'T', ' ', 'R', '4'] = .error ⟨1, .operandOutOfRange⟩ ∧
    assemble Config.defaults (.other "m") ['F', 'O', 'O'] = .error ⟨1, .unknownMnemonic⟩ := by decide
/-- 95, W7: the label a is defined on lines 1 and 3. -/
theorem test_assemble_duplicate_label :
    assemble Config.defaults (.other "m") ['a', ':', '\n', 'N', 'O', 'P', '\n', 'a', ':', '\n', 'H', 'A', 'L', 'T'] =
      .error ⟨3, .duplicateLabel⟩ := by decide
/-- 30_encoding.md R80, a label just after a one-byte instruction, under AFTER and SELF. -/
theorem test_assemble_label :
    assemble Config.defaults (.other "m")
      ['J', 'M', 'P', 'I', ' ', 'x', ' ', ';', 'c', '\n', 'N', 'O', 'P', '\n', 'x', ':'] = .ok [0x0A, 1, 7] ∧
    assemble { Config.defaults with branchBase := .self } (.other "m")
      ['J', 'M', 'P', 'I', ' ', 'x', '\n', 'N', 'O', 'P', '\n', 'x', ':'] = .ok [0x0A, 3, 7] := by decide

/-! ### Witnesses: the hypotheses of the obligations can be met -/

/-- NOP, SET 9 and PUT with 3, about to run; a state every branch of the cycle starts from. -/
def ready : State := start [7, 1, 9, 2, 3]

theorem test_witness_ready : ready.wf = true ∧ CanStep ready ∧ ready.image.wf = true ∧ 0 ≤ ready.pc :=
  ⟨by decide, ⟨rfl, rfl, by decide⟩, by decide, by decide⟩
/-- DecodeOfEncodeIsTheInstruction, DecoderInvertsTheOpcodeMap, RunsDoNotDependOnTheOpcodeMap. -/
theorem test_witness_injective :
    OpcodeMap.ref.injective = true ∧ OpcodeMap.injective { OpcodeMap.ref with opNop := 0 } = true := by decide
/-- LengthIsAFunctionOfTheOpcode, EncodeOfDecodeIsTheBytes. -/
theorem test_witness_same_opcode :
    decode OpcodeMap.ref [1, 0] = .ok (.set 0, []) ∧ decode OpcodeMap.ref [1, 255, 7] = .ok (.set 255, [7]) := by decide
/-- PlacedTableWordIsTheNextInstruction. -/
theorem test_witness_table_word : decodeTableWord 16 0x0100 = some (.set 0) := by decide
/-- LaunchMeetsTheInvariant and every statement about all runs of a well-formed configuration. -/
theorem test_witness_config : Config.defaults.wellFormed = true := by decide
/-- EveryRunStartsFresh, and the register clauses: the last register of four, and the first index beyond it. -/
theorem test_witness_register_bounds :
    (3 : Byte).toNat < ready.cfg.numRegs ∧ ready.cfg.numRegs ≤ (4 : Byte).toNat ∧
    ready.regs.length = ready.cfg.numRegs ∧ ready.regs[(3 : Byte).toNat]? = some 0 := by decide
/-- EmptyBudgetAndEmptyImage. -/
theorem test_witness_budget : 0 < 1 := by decide
/-- StepKeepsTheInvariant, NoStepFromTheInvariantStops, CyclesCountsCompletedSteps, InstructionMemoryIsNeverWritten,
StepKeepsTheInputsOfTheRun, SecondNopOnlyAdvances. -/
theorem test_witness_step :
    step ready = .next { ready with z := true, pc := 1, cycles := 1 } ∧
    exec .nop ready = .next { ready with z := true, pc := 1, cycles := 1 } ∧
    exec .nop { ready with z := true, pc := 1, cycles := 1 } = .next { ready with z := true, pc := 2, cycles := 2 } :=
  ⟨rfl, rfl, rfl⟩
/-- MemReadIsBoundsChecked: the addresses on both sides of both bounds. -/
theorem test_witness_bounds :
    ready.image.wf = true ∧ (-1 : Int) < 0 ∧ (ready.image.length : Int) ≤ 5 ∧ (0 : Int) ≤ 0 ∧
    (4 : Int) < ready.image.length := by decide
/-- StepRunsTheDecodedInstruction. -/
theorem test_witness_decode_at_pc :
    decode ready.cfg.opc (ready.image.bytes.drop ready.pc.toNat) = .ok (.nop, [1, 9, 2, 3]) := by decide
/-- FetchOutsideTheImageFaults: just below and just beyond the image. -/
theorem test_witness_fetch_outside :
    (CanStep { ready with pc := -1 } ∧ (-1 : Int) < 0) ∧
    (CanStep { ready with pc := 5 } ∧ (ready.image.length : Int) ≤ 5) :=
  ⟨⟨⟨rfl, rfl, by decide⟩, by decide⟩, ⟨⟨rfl, rfl, by decide⟩, by decide⟩⟩
/-- UnknownOpcodeFaults. -/
theorem test_witness_unknown_opcode :
    CanStep (start [0]) ∧ (start [0]).image.wf = true ∧ (start [0]).image.bytes[(start [0]).pc.toNat]? = some 0 ∧
    ∀ m : Mnemonic, (start [0]).cfg.opc.byte m ≠ 0 :=
  ⟨⟨rfl, rfl, by decide⟩, by decide, by decide, by intro m; cases m <;> decide⟩
/-- OperandFetchFollowsTheWidth: a two-byte opcode with its operand at N-1, one at N-1 itself, and a one-byte opcode. -/
theorem test_witness_operand_fetch :
    (CanStep { ready with pc := 3 } ∧ ready.image.bytes[3]? = some 2 ∧ decodeOpcode ready.cfg.opc 2 = some .put ∧
      Mnemonic.put.width = 2 ∧ ready.image.bytes[4]? = some 3) ∧
    (CanStep (start [1]) ∧ (start [1]).image.bytes[0]? = some 1 ∧ decodeOpcode (start [1]).cfg.opc 1 = some .set ∧
      ((start [1]).image.length : Int) ≤ 0 + 1) ∧
    (ready.image.bytes[0]? = some 7 ∧ decodeOpcode ready.cfg.opc 7 = some .nop ∧ Mnemonic.nop.width = 1) :=
  ⟨⟨⟨rfl, rfl, by decide⟩, by decide⟩, ⟨⟨rfl, rfl, by decide⟩, by decide⟩, by decide⟩
/-- RunThatCannotStepEnds: halted with budget left, and not halted with the budget just spent. -/
theorem test_witness_cannot_step :
    ({ ready with halted := true } : State).termination = none ∧ ({ ready with halted := true } : State).halted = true ∧
    ({ ready with cycles := 10 } : State).maxCycles ≤ ({ ready with cycles := 10 } : State).cycles ∧
    ({ ready with cycles := 10 } : State).halted = false ∧ State.wf { ready with cycles := 10 } = true := by decide
/-- EndedRunStaysAsItIs. -/
theorem test_witness_ended : ({ ready with termination := some .halted } : State).termination.isSome = true := by decide
/-- FaultsArePrecise, RegisterIndexFault (second clause). -/
theorem test_witness_fault :
    step (start [2, 4]) = .next { start [2, 4] with termination := some (.fault 0 .invalidRegisterIndex) } ∧
    exec (.put 4) (start [2, 4]) = .next { start [2, 4] with termination := some (.fault 0 .invalidRegisterIndex) } ∧
    (start [2, 4]).termination = none := ⟨rfl, rfl, rfl⟩
/-- StepReadsOnlyItsOwnInstruction: another image that agrees at addresses 0 and 1. -/
theorem test_witness_other_image :
    (Memory.ofBytes [7, 1, 0, 0, 0]).length = ready.image.length ∧
    ∀ a : Nat, (a : Int) = ready.pc ∨ (a : Int) = ready.pc + 1 →
      (Memory.ofBytes [7, 1, 0, 0, 0]).read a = ready.image.read a := by
  refine ⟨rfl, fun a h => ?_⟩
  have hpc : ready.pc = 0 := rfl
  obtain rfl | rfl : a = 0 ∨ a = 1 := by omega
  · rfl
  · rfl
/-- TransferLaws, third clause; OnlyFlagAffectingInstructionsWriteFlags, OnlyPutWritesARegister,
OnlyFiveInstructionsWriteAcc: an instruction that writes each. -/
theorem test_witness_writers :
    exec (.set 9) ready = .next { ready with acc := 9, pc := 2, cycles := 1 } ∧
    exec (.put 3) { ready with acc := 9 } = .next { ready with acc := 9, regs := [0, 0, 0, 9], pc := 2, cycles := 1 } ∧
    exec (.addi 0) ready = .next { ready with z := true, pc := 2, cycles := 1 } := ⟨rfl, rfl, rfl⟩
/-- ArithmeticIdentities, AddiCornerCases. -/
theorem test_witness_arithmetic :
    exec (.add 3) ready = .next { ready with z := true, pc := 2, cycles := 1 } ∧
    exec (.addi 255) ready = .next { ready with acc := 255, pc := 2, cycles := 1 } ∧
    exec (.subi 1) ready = .next { ready with acc := 255, c := true, pc := 2, cycles := 1 } ∧
    ready.cfg.subiCarry = .borrow := ⟨rfl, rfl, rfl, rfl⟩
/-- GetThenNopTestsTheRegister (last clause), BranchTargetIsBasePlusOffset. -/
theorem test_witness_parameters :
    ready.cfg.nopCarry = .keep ∧ ready.cfg.branchBase = .after ∧
    ({ Config.defaults with branchBase := .self } : Config).branchBase = .self := by decide
/-- TargetOutsideTheImageFaultsNext: a jump to -1, a taken BZ and BCS to N, and a BZ not taken. -/
theorem test_witness_targets :
    (exec (.jmpi 0xFD) ready = .next { ready with pc := -1, cycles := 1 } ∧
      CanStep { ready with pc := -1, cycles := 1 } ∧ branchTarget ready.cfg 0 (0 + 2) 0xFD = -1) ∧
    (exec (.bz 3) { ready with z := true } = .next { ready with z := true, pc := 5, cycles := 1 } ∧
      exec (.bcs 3) { ready with c := true } = .next { ready with c := true, pc := 5, cycles := 1 } ∧
      CanStep { ready with z := true, pc := 5, cycles := 1 } ∧ CanStep { ready with c := true, pc := 5, cycles := 1 } ∧
      branchTarget ready.cfg 0 (0 + 2) 3 = 5 ∧ ready.image.length = 5) ∧
    exec (.bz 3) ready = .next { ready with pc := 2, cycles := 1 } :=
  ⟨⟨rfl, ⟨rfl, rfl, by decide⟩, by decide⟩,
    ⟨rfl, rfl, ⟨rfl, rfl, by decide⟩, ⟨rfl, rfl, by decide⟩, by decide, by decide⟩, rfl⟩
/-- HaltStopsTheEngine, NothingHappensAfterHalt, OnlyHaltSetsHalted. -/
theorem test_witness_halt :
    exec .halt ready = .next { ready with halted := true, pc := 1, cycles := 1 } ∧ ready.termination = none ∧
    RunsTo 1 { ready with halted := true } { ready with halted := true, termination := some .halted } :=
  ⟨rfl, rfl, rfl⟩
/-- RunsDoNotDependOnTheOpcodeMap: a run of one step at a boundary. -/
theorem test_witness_boundary :
    (∀ (j : Nat) (u : State), j < 1 → RunsTo j (reencode OpcodeMap.ref [.halt] (start [])) u → CanStep u →
      AtBoundary [.halt] u.pc) ∧
    RunsTo 1 (reencode OpcodeMap.ref [.halt] (start []))
      (reencode OpcodeMap.ref [.halt] { start [] with halted := true, pc := 1, cycles := 1 }) := by
  refine ⟨fun j u hj hu _ => ?_, rfl⟩
  obtain rfl : j = 0 := by omega
  obtain rfl := runsTo_zero.mp hu
  exact ⟨0, by decide, rfl⟩
/-- WrappedPcAgrees: an 8-bit PC and an image of 128 bytes would just do; here one of 5 bytes at pc = -128. -/
theorem test_witness_wrapped_pc :
    State.wf { ready with pc := -128, cfg := { Config.defaults with pcWidth := some 8 } } = true ∧
    ready.image.length + 128 ≤ 2 ^ 8 := by decide
/-- RunsArePrefixConsistent. -/
theorem test_witness_prefix :
    RunsTo (1 + 1) (State.launch Config.defaults [7] 1)
      { State.launch Config.defaults [7] 1 with
        z := true, pc := 1, cycles := 1, termination := some .cycleLimitReached } ∧ 1 < 2 := ⟨rfl, by decide⟩
/-- MeaningsObeyTheControlTable, both answers of the datapath. -/
theorem test_witness_datapath :
    ready.regs.length = ready.cfg.numRegs ∧
    (controlOf .put).obey ready.cfg 4 ready.engine = .error .invalidRegisterIndex ∧
    (controlOf .nop).obey ready.cfg 0 ready.engine = .ok { ready.engine with z := true, pc := 1, cycles := 1 } := by
  decide
/-- AssembledOffsetReachesItsTarget at both ends of the range and just beyond it. -/
theorem test_witness_offsets :
    assembleOffset Config.defaults 0 2 129 = some 0x7F ∧ assembleOffset Config.defaults 0 2 130 = none ∧
    assembleOffset Config.defaults 0 2 (-126) = some 0x80 ∧ assembleOffset Config.defaults 0 2 (-127) = none := by decide
/-- AssembledProgramsAreWellFormed. -/
theorem test_witness_assembled :
    assemble Config.defaults (.other "m") ['H', 'A', 'L', 'T'] = .ok [0x0B] := by decide
/-- Lines for AssemblerAddressesAreFetchAddresses: a label before an instruction, and one after the last. -/
def twoLabels : List LineBody :=
  [.instr ['A', 'D', 'D', 'I'] [['7']], .label ['x'], .blank, .instr ['N', 'O', 'P'] [], .label ['y']]
/-- What pass 1 makes of them. -/
def twoItems : List Item := [⟨1, 0, .addi, [['7']]⟩, ⟨4, 2, .nop, []⟩]
/-- AssemblerAddressesAreFetchAddresses: every clause, both labels, and an engine at the second instruction. -/
theorem test_witness_assembler_addresses :
    passOne 1 0 [] twoLabels = .ok (twoItems, [(['y'], 3), (['x'], 2)]) ∧
    passTwo Config.defaults (.other "m") [(['y'], 3), (['x'], 2)] twoItems = .ok [.addi 7, .nop] ∧
    instrsBefore twoLabels 1 = 1 ∧ instrsBefore twoLabels 4 = 2 ∧ Config.defaults.opc.injective = true ∧
    (start [5, 7, 7]).image = Memory.ofBytes (encodeAll Config.defaults.opc [.addi 7, .nop]) ∧
    (start [5, 7, 7]).cfg = Config.defaults ∧ CanStep { start [5, 7, 7] with pc := 2 } := by
  refine ⟨by decide, by decide, by decide, by decide, by decide, by decide, rfl, rfl, rfl, by decide⟩

end Sys2Proof.Tests
end

/-! ## The family of spec/10_state.md: the flags, HALTED, and the start of a run -/

namespace Sys2Proof.Machine

variable {s t : State} {i : Instr}

/-! ### The flags (R31) -/

/-- The flag frame of an instruction: SET, PUT, GET, BZ, BCS, JMPI and HALT leave both flags alone, whether they
complete or raise a fault at the register port. -/
theorem exec_keeps_flags (h : exec i s = .next t)
    (hi : ¬(i.mnemonic = .add ∨ i.mnemonic = .addi ∨ i.mnemonic = .subi ∨ i.mnemonic = .nop)) :
    t.z = s.z ∧ t.c = s.c := by
  cases i with
  | add _ | addi _ | subi _ | nop => simp [Instr.mnemonic] at hi
  | put _ | get _ =>
    rcases withReg_cases h with ⟨-, rfl⟩ | ⟨v, -, -, hv⟩
    · simp
    · cases hv
      simp
  | set _ | bz _ | bcs _ | jmpi _ | halt =>
    cases h
    exact ⟨rfl, rfl⟩

/-- Settles O44: an instruction that is none of the four leaves both flags, so one that changes a flag is one of them. -/
theorem onlyFlagAffectingInstructionsWriteFlags : Obligations.OnlyFlagAffectingInstructionsWriteFlags := by
  intro i s t h hchanged
  by_contra hi
  obtain ⟨hz, hc⟩ := exec_keeps_flags h hi
  exact hchanged.elim (· hz) (· hc)

/-! ### HALTED (R34) -/

theorem exec_halt : exec .halt s = .next (s.setHalted.advance (s.nextPc .halt)) := rfl

/-- HALTED after any instruction, faults included: HALT itself reads no register and so cannot fault. -/
theorem exec_halted (h : exec i s = .next t) : t.halted = (s.halted || decide (i = .halt)) := by
  by_cases hi : i = .halt
  · subst hi
    rw [exec_halt] at h
    cases h
    simp
  · rcases exec_cases h with rfl | hcompletes
    · simp [hi]
    · exact hcompletes.halted

/-- A step of a halted machine changes nothing but an empty termination record, which becomes `Halted` (R36, R101). -/
theorem step_of_halted (hs : s.halted = true) (h : step s = .next t) :
    (s.termination.isSome = true ∧ t = s) ∨ (s.termination = none ∧ t = s.ended .halted) := by
  have hreason : s.endReason = some .halted := endReason_halted hs
  rcases step_cases h with hended | ⟨hnone, r, hr, rfl⟩ | ⟨-, hgo, -⟩
  · exact .inl hended
  · obtain rfl : r = .halted := Option.some.inj (hr.symm.trans hreason)
    exact .inr ⟨hnone, rfl⟩
  · rw [hreason] at hgo
    cases hgo

/-- Settles O47, from HALTED after each instruction and the step of a halted machine. -/
theorem onlyHaltSetsHalted : Obligations.OnlyHaltSetsHalted := by
  refine ⟨fun i s t h => ?_, fun s t hs h => ?_⟩
  · rw [exec_halted h, Bool.or_eq_true, decide_eq_true_eq]
  · rcases step_of_halted hs h with ⟨-, rfl⟩ | ⟨-, rfl⟩
    · rfl
    · exact State.ended_engine _ _

/-! ### The start of a run (R40) -/

/-- Every register of the file can be read before its first write. -/
theorem launch_reg (cfg : Config) (bytes : List Byte) (maxCycles : Nat) {r : Nat} (hr : r < cfg.numRegs) :
    (State.launch cfg bytes maxCycles).regs[r]? = some 0 := by
  rw [State.launch_regs, List.getElem?_replicate, if_pos hr]

/-- A GET at the start of a run completes and, ACC being 0 already, only moves `pc` and counts. -/
theorem exec_get_launch (cfg : Config) (bytes : List Byte) (maxCycles : Nat) {r : Byte} (hr : r.toNat < cfg.numRegs) :
    exec (.get r) (State.launch cfg bytes maxCycles) =
      .next { State.launch cfg bytes maxCycles with pc := 2, cycles := 1 } := by
  rw [exec_get, withReg_inside hr (launch_reg cfg bytes maxCycles hr)]
  rfl

/-- Settles O8: the fields by the laws of `State.launch`, the registers by reading a file of zeros. -/
theorem everyRunStartsFresh : Obligations.EveryRunStartsFresh := by
  intro cfg bytes maxCycles
  have hlength : (State.launch cfg bytes maxCycles).regs.length = cfg.numRegs := List.length_replicate
  have hzero : ∀ r ∈ (State.launch cfg bytes maxCycles).regs, r = 0 := fun _ hr => List.eq_of_mem_replicate hr
  exact ⟨State.launch_acc .., hlength, hzero, State.launch_z .., State.launch_c .., State.launch_pc ..,
    State.launch_cycles .., State.launch_halted .., State.launch_termination ..,
    fun _ hr => exec_get_launch cfg bytes maxCycles hr⟩

end Sys2Proof.Machine

/-! ## The family of spec/20_memory.md: instruction memory -/

namespace Sys2Proof.Machine

variable {s t : State} {i : Instr}

/-! ### The image is never written (R51) -/

/-- An instruction leaves the image alone, both where it completes and where it faults at the register port. -/
theorem exec_image (h : exec i s = .next t) : t.image = s.image := by
  rcases exec_cases h with rfl | hcompletes
  · exact State.ended_image _ _
  · exact hcompletes.image

/-- A step leaves the image alone on every path: the run has ended, it ends now, it faults, or an instruction
completes. -/
theorem step_image (h : step s = .next t) : t.image = s.image := by
  rcases step_cases h with ⟨-, rfl⟩ | ⟨-, r, -, rfl⟩ | ⟨-, -, ⟨k, rfl⟩ | ⟨i, -, -, hcompletes⟩⟩
  · rfl
  · exact State.ended_image _ _
  · exact State.ended_image _ _
  · exact hcompletes.image

/-- Settles O13, from the image frames of `exec` and `step`: a read depends on nothing but the image. -/
theorem instructionMemoryIsNeverWritten : Obligations.InstructionMemoryIsNeverWritten := by
  refine ⟨fun i s t h => ?_, fun s t h => ?_⟩
  · have himage : t.image = s.image := exec_image h
    exact ⟨himage, fun a => congrArg (·.read a) himage⟩
  · have himage : t.image = s.image := step_image h
    exact ⟨himage, fun a => congrArg (·.read a) himage⟩

end Sys2Proof.Machine

/-! ## The family of spec/30_encoding.md: the decoder -/

namespace Sys2Proof

variable {o : OpcodeMap} {op : Byte} {m : Mnemonic} {i : Instr} {bytes rest : List Byte}

/-! ### The lookup inverts the opcode map (R71) -/

theorem decodeOpcode_eq_some_iff (ho : o.injective = true) : decodeOpcode o op = some m ↔ o.byte m = op := by
  constructor
  · exact decodeOpcode_some
  · rintro rfl
    exact decodeOpcode_byte ho m

/-- Whatever the map: the lookup goes through all the mnemonics before it gives up. -/
theorem decodeOpcode_eq_none_iff : decodeOpcode o op = none ↔ ∀ m, o.byte m ≠ op := by
  simp [decodeOpcode, List.find?_eq_none, Mnemonic.mem_all]

theorem decode_of_decodeOpcode_none (h : decodeOpcode o op = none) :
    decode o (op :: rest) = .error (.invalidOpcode op) := by
  simp [decode, h]

/-- Settles O3: the lookup is the inverse of an injective map, and the decoder refuses what the lookup does not find. -/
theorem decoderInvertsTheOpcodeMap : Obligations.DecoderInvertsTheOpcodeMap := by
  intro o op ho
  exact ⟨fun _ => decodeOpcode_eq_some_iff ho, decodeOpcode_eq_none_iff,
    fun hnone _ => decode_of_decodeOpcode_none (decodeOpcode_eq_none_iff.mpr hnone)⟩

/-! ### The length of an instruction (R68) -/

/-- What a decoding that succeeds did: it found the mnemonic of the opcode byte and then took no further byte (F1), or
took exactly one, the operand (F2). -/
theorem decode_cases (h : decode o (op :: bytes) = .ok (i, rest)) :
    ∃ m, decodeOpcode o op = some m ∧
      ((m.operandKind = none ∧ i = m.instr 0 ∧ bytes = rest) ∨
        ∃ kind b, m.operandKind = some kind ∧ i = m.instr b ∧ bytes = b :: rest) := by
  cases hm : decodeOpcode o op with
  | none =>
    rw [decode_of_decodeOpcode_none hm] at h
    cases h
  | some m =>
    refine ⟨m, rfl, ?_⟩
    simp only [decode, hm] at h
    cases hk : m.operandKind with
    | none =>
      simp only [hk] at h
      cases h
      exact .inl ⟨rfl, rfl, rfl⟩
    | some kind =>
      cases bytes with
      | nil =>
        simp only [hk] at h
        cases h
      | cons b bytes =>
        simp only [hk] at h
        cases h
        exact .inr ⟨kind, b, rfl, rfl, rfl⟩

/-- The mnemonic decoded is the one the lookup answers for the opcode byte; no byte after it has a say. -/
theorem decode_mnemonic (h : decode o (op :: bytes) = .ok (i, rest)) : decodeOpcode o op = some i.mnemonic := by
  obtain ⟨m, hm, ⟨-, rfl, -⟩ | ⟨-, b, -, rfl, -⟩⟩ := decode_cases h
  · rwa [Mnemonic.instr_mnemonic]
  · rwa [Mnemonic.instr_mnemonic]

/-- A decoding consumes as many bytes as the instruction is wide. -/
theorem decode_length (h : decode o (op :: bytes) = .ok (i, rest)) :
    (op :: bytes).length = i.width + rest.length := by
  obtain ⟨m, -, ⟨hf1, rfl, rfl⟩ | ⟨kind, b, hf2, rfl, rfl⟩⟩ := decode_cases h
  · rw [Mnemonic.instr_width, Mnemonic.width_of_f1 hf1, List.length_cons, Nat.add_comm]
  · rw [Mnemonic.instr_width, Mnemonic.width_of_f2 hf2, List.length_cons, List.length_cons]
    omega

/-- Settles O5: equal opcode bytes have equal mnemonics, the width is the mnemonic's, and the decoder consumes it. -/
theorem lengthIsAFunctionOfTheOpcode : Obligations.LengthIsAFunctionOfTheOpcode := by
  intro o op bytes bytes' rest rest' i i' h h'
  have hmnemonic : i.mnemonic = i'.mnemonic := Option.some.inj ((decode_mnemonic h).symm.trans (decode_mnemonic h'))
  exact ⟨congrArg Mnemonic.width hmnemonic, decode_length h⟩

end Sys2Proof

/-! ## The family of spec/40_cycle.md: the cycle, its faults, its count, and the end of a run -/

namespace Sys2Proof

/-- A one-byte instruction has no operand for a byte to be (R66). -/
theorem Mnemonic.instr_of_f1 {m : Mnemonic} (h : m.operandKind = none) (b : Byte) : m.instr b = m.instr 0 := by
  cases m with
  | nop | halt => rfl
  | set | put | get | add | addi | subi | bz | bcs | jmpi => cases h

end Sys2Proof

namespace Sys2Proof.Machine

variable {s t u : State} {m : Mnemonic} {op : Byte} {f g : Instr → Result} {r : Termination} {n budget : Nat}

/-! ### The end of a run that cannot step (R101, R110) -/

theorem canStep_iff : CanStep s ↔ s.termination = none ∧ s.endReason = none := by
  rw [CanStep, endReason_eq_none]

/-- What keeps the engine from stepping: `Halted` before the budget. -/
theorem endReason_cases (h : s.endReason = some r) :
    (r = .halted ∧ s.halted = true) ∨ (r = .cycleLimitReached ∧ s.halted = false ∧ s.maxCycles ≤ s.cycles) := by
  cases hhalted : s.halted with
  | true => exact .inl ⟨Option.some.inj (h.symm.trans (endReason_halted hhalted)), rfl⟩
  | false =>
    have hbudget : s.maxCycles ≤ s.cycles := by
      by_contra hlt
      rw [endReason_eq_none.mpr ⟨hhalted, Nat.not_le.mp hlt⟩] at h
      cases h
    exact .inr ⟨Option.some.inj (h.symm.trans (endReason_budget hhalted hbudget)), rfl, hbudget⟩

/-- A run that has ended takes no further step (R36, R100). -/
theorem step_of_ended (hs : s.termination = some r) : step s = .next s := by
  simp [step, hs]

theorem step_of_endReason (hs : s.termination = none) (hr : s.endReason = some r) : step s = .next (s.ended r) := by
  simp [step, hs, hr]

/-- Settles O20: the record a step sets when the engine cannot step is `State.endReason`; `CYCLES` equals the budget
because the invariant keeps it from going beyond. -/
theorem runThatCannotStepEnds : Obligations.RunThatCannotStepEnds := by
  intro s hs
  refine ⟨fun hhalted => step_of_endReason hs (endReason_halted hhalted), fun hhalted hbudget => ⟨?_, fun hwf => ?_⟩,
    rfl, rfl⟩
  · exact step_of_endReason hs (endReason_budget hhalted hbudget)
  · obtain ⟨-, -, -, hcycles, -, -⟩ := State.wf_iff.mp hwf
    exact Nat.le_antisymm hcycles hbudget

/-! ### The fetch, path by path (R102 to R105) -/

/-- A fetch outside the image goes no further than the opcode. -/
theorem fetch_outside (h : s.pc < 0 ∨ (s.image.length : Int) ≤ s.pc) : s.fetch f = s.raise .pcOutOfBounds :=
  memRead_outside h _

/-- In canonical form `MemRead` goes on with the byte at that offset of the image. -/
theorem memRead_byte {a : Int} {b : Byte} (hwf : s.image.wf = true) (h0 : 0 ≤ a)
    (hb : s.image.bytes[a.toNat]? = some b) (k : Byte → Result) : s.memRead a k = k b := by
  have hlt : a.toNat < s.image.length := Memory.length_bytes s.image ▸ (List.getElem?_eq_some_iff.mp hb).1
  exact memRead_inside h0 (by omega) ((Memory.read_of_wf hwf _).trans hb) k

/-- Settles O10: no budget is a reason to end; the empty image has no opcode at 0. -/
theorem emptyBudgetAndEmptyImage : Obligations.EmptyBudgetAndEmptyImage := by
  refine ⟨fun cfg bytes => ?_, fun cfg maxCycles hbudget => ?_⟩
  · exact step_of_endReason rfl (endReason_budget rfl (Nat.le_refl 0))
  · have hcan : CanStep (State.launch cfg [] maxCycles) := ⟨rfl, rfl, hbudget⟩
    exact (step_of_canStep hcan).trans (fetch_outside (.inr (Int.le_refl 0)))

section OpcodeByte

variable (hwf : s.image.wf = true) (h0 : 0 ≤ s.pc) (hop : s.image.bytes[s.pc.toNat]? = some op)
include hwf h0 hop

theorem fetch_invalidOpcode (hm : decodeOpcode s.cfg.opc op = none) : s.fetch f = s.raise .invalidOpcode := by
  rw [State.fetch, memRead_byte hwf h0 hop]
  simp only [hm]

/-- A one-byte instruction is fetched by its opcode alone. -/
theorem fetch_f1 (hm : decodeOpcode s.cfg.opc op = some m) (hk : m.operandKind = none) :
    s.fetch f = f (m.instr 0) := by
  rw [State.fetch, memRead_byte hwf h0 hop]
  simp only [hm, hk]

/-- A two-byte instruction is fetched by a second bounds-checked read, after the opcode is decoded. -/
theorem fetch_f2 {kind : OperandKind} (hm : decodeOpcode s.cfg.opc op = some m) (hk : m.operandKind = some kind) :
    s.fetch f = s.memRead (s.pc + 1) fun b => f (m.instr b) := by
  rw [State.fetch, memRead_byte hwf h0 hop]
  simp only [hm, hk]

end OpcodeByte

/-- Settles O18: the lookup finds no mnemonic, and the fetch raises before it looks for an operand. -/
theorem unknownOpcodeFaults : Obligations.UnknownOpcodeFaults := by
  intro s op hcan hwf h0 hop hunknown
  rw [step_of_canStep hcan]
  exact fetch_invalidOpcode hwf h0 hop (decodeOpcode_eq_none_iff.mpr hunknown)

/-- Settles O19: the operand shape decides between the two paths of the fetch, and the width is the shape's. -/
theorem operandFetchFollowsTheWidth : Obligations.OperandFetchFollowsTheWidth := by
  intro s op m hcan hwf h0 hop hm
  rw [step_of_canStep hcan]
  cases hk : m.operandKind with
  | none =>
    have hwidth : m.width = 1 := Mnemonic.width_of_f1 hk
    refine ⟨fun h2 => absurd (hwidth.symm.trans h2) (by decide), fun _ b => ?_⟩
    rw [fetch_f1 hwf h0 hop hm hk, Mnemonic.instr_of_f1 hk b]
  | some kind =>
    have hwidth : m.width = 2 := Mnemonic.width_of_f2 hk
    refine ⟨fun _ => ?_, fun h1 => absurd (hwidth.symm.trans h1) (by decide)⟩
    rw [fetch_f2 hwf h0 hop hm hk]
    refine ⟨fun b hb => memRead_byte hwf (by omega) ?_ _, fun hend => memRead_outside (.inr hend) _⟩
    rwa [show (s.pc + 1).toNat = s.pc.toNat + 1 by omega]

/-! ### What a step that leaves, or sets, the record did (R100, R107, R108) -/

/-- A step after which the run still goes on completed an instruction. -/
theorem completes_of_goes_on (h : step s = .next t) (ht : t.termination = none) :
    CanStep s ∧ ∃ i, Completes i s t := by
  rcases step_cases h with ⟨hended, rfl⟩ | ⟨-, r, -, rfl⟩ | ⟨hnone, hgo, ⟨k, rfl⟩ | ⟨i, -, -, hcompletes⟩⟩
  · simp [ht] at hended
  · cases ht
  · cases ht
  · exact ⟨canStep_iff.mpr ⟨hnone, hgo⟩, i, hcompletes⟩

/-- A step that ends the run writes the record and nothing else: the reason the engine cannot step, or, if it can, a
fault at the `pc` it started from. -/
theorem ended_of_ends (h : step s = .next t) (hs : s.termination = none) (ht : t.termination = some r) :
    t = s.ended r ∧ (s.endReason = some r ∨ (CanStep s ∧ ∃ kind, r = .fault s.pc kind)) := by
  rcases step_cases h with ⟨hended, rfl⟩ | ⟨-, r', hr, rfl⟩ | ⟨-, hgo, ⟨kind, rfl⟩ | ⟨i, -, -, hcompletes⟩⟩
  · simp [hs] at hended
  · obtain rfl : r' = r := Option.some.inj ht
    exact ⟨rfl, .inl hr⟩
  · obtain rfl : .fault s.pc kind = r := Option.some.inj ht
    exact ⟨rfl, .inr ⟨canStep_iff.mpr ⟨hs, hgo⟩, kind, rfl⟩⟩
  · simp [hcompletes.termination, hs] at ht

/-- A step of an engine that cannot step writes at most the record. -/
theorem engine_of_not_canStep (h : step s = .next t) (hcannot : ¬CanStep s) : t.engine = s.engine := by
  rcases step_cases h with ⟨-, rfl⟩ | ⟨-, r, -, rfl⟩ | ⟨hnone, hgo, -⟩
  · rfl
  · exact State.ended_engine s r
  · exact absurd (canStep_iff.mpr ⟨hnone, hgo⟩) hcannot

/-- Settles O22: completing counts one; ending the run, and a step that is none, write no architectural state. -/
theorem cyclesCountsCompletedSteps : Obligations.CyclesCountsCompletedSteps := by
  intro s t h
  refine ⟨fun _ ht => ?_, fun hcan ht => ?_, engine_of_not_canStep h⟩
  · obtain ⟨-, i, hcompletes⟩ := completes_of_goes_on h ht
    exact hcompletes.cycles
  · obtain ⟨r, hr⟩ := Option.isSome_iff_exists.mp ht
    obtain ⟨rfl, -⟩ := ended_of_ends h hcan.1 hr
    exact State.ended_engine s r

/-- Settles O23: of the two ways a step sets the record, only the one of an engine that can step is a fault. -/
theorem faultsArePrecise : Obligations.FaultsArePrecise := by
  intro s t p kind h hs ht
  obtain ⟨rfl, hreason | ⟨hcan, kind', hfault⟩⟩ := ended_of_ends h hs ht
  · rcases endReason_cases hreason with ⟨hr, -⟩ | ⟨hr, -⟩ <;> cases hr
  · cases hfault
    exact ⟨hcan, rfl, rfl⟩

/-! ### The budget and the run (R114)

A larger budget changes nothing in a step that completes, since only `State.endReason` reads the budget. -/

/-- The state of a run as it is under another budget. -/
def State.withBudget (s : State) (budget : Nat) : State := { s with maxCycles := budget }

@[simp] theorem State.withBudget_cfg : (s.withBudget budget).cfg = s.cfg := rfl

/-- A launch with another budget is the same launch but for the budget. -/
theorem State.launch_withBudget (cfg : Config) (bytes : List Byte) (k : Nat) :
    (State.launch cfg bytes k).withBudget budget = State.launch cfg bytes budget := rfl

/-- A reported state, its record taken away and the budget replaced, is the state before the record was set. -/
theorem State.ended_withBudget (hs : s.termination = none) :
    { s.ended r with maxCycles := budget, termination := none } = s.withBudget budget := by
  rw [← hs]
  rfl

theorem memRead_withBudget {a : Int} {k k' : Byte → Result} (h : s.memRead a k = .next t)
    (hk : ∀ b, k b = .next t → k' b = .next (t.withBudget budget)) :
    (s.withBudget budget).memRead a k' = .next (t.withBudget budget) := by
  rcases memRead_cases h with ⟨hout, rfl⟩ | ⟨b, h0, hN, hb, h⟩
  · exact memRead_outside (s := s.withBudget budget) hout k'
  · exact (memRead_inside (s := s.withBudget budget) h0 hN hb k').trans (hk b h)

theorem withReg_withBudget {reg : Byte} {k k' : Byte → Result} (h : s.withReg reg k = .next t)
    (hk : ∀ v, k v = .next t → k' v = .next (t.withBudget budget)) :
    (s.withBudget budget).withReg reg k' = .next (t.withBudget budget) := by
  rcases withReg_cases h with ⟨hout, rfl⟩ | ⟨v, hreg, hv, h⟩
  · exact withReg_outside (s := s.withBudget budget) hout k'
  · exact (withReg_inside (s := s.withBudget budget) hreg hv k').trans (hk v h)

theorem exec_withBudget {i : Instr} (h : exec i s = .next t) :
    exec i (s.withBudget budget) = .next (t.withBudget budget) := by
  cases i with
  | put _ | get _ | add _ =>
    refine withReg_withBudget h fun v hv => ?_
    cases hv
    rfl
  | set _ | addi _ | subi _ | nop | bz _ | bcs _ | jmpi _ | halt =>
    cases h
    rfl

theorem fetch_withBudget (h : s.fetch f = .next t)
    (hf : ∀ i, f i = .next t → g i = .next (t.withBudget budget)) :
    (s.withBudget budget).fetch g = .next (t.withBudget budget) := by
  refine memRead_withBudget h fun op hop => ?_
  cases hm : decodeOpcode s.cfg.opc op with
  | none =>
    simp only [hm] at hop
    cases hop
    simp only [State.withBudget_cfg, hm]
    rfl
  | some m =>
    simp only [hm] at hop
    simp only [State.withBudget_cfg, hm]
    cases hk : m.operandKind with
    | none =>
      simp only [hk] at hop ⊢
      exact hf _ hop
    | some kind =>
      simp only [hk] at hop ⊢
      exact memRead_withBudget hop fun b hb => hf _ hb

/-- A step that does not end the run is the same step under any budget that is not smaller. -/
theorem step_withBudget (h : step s = .next t) (ht : t.termination = none) (hle : s.maxCycles ≤ budget) :
    step (s.withBudget budget) = .next (t.withBudget budget) := by
  obtain ⟨hcan, -⟩ := completes_of_goes_on h ht
  rw [step_of_canStep hcan] at h
  obtain ⟨hrec, hhalted, hlt⟩ := hcan
  have hcan' : CanStep (s.withBudget budget) := ⟨hrec, hhalted, Nat.lt_of_lt_of_le hlt hle⟩
  rw [step_of_canStep hcan']
  exact fetch_withBudget h fun i hi => exec_withBudget hi

/-- The record, once set, is the record of every later state. -/
theorem runsTo_keeps_record (hs : s.termination = some r) (h : RunsTo n s t) : t.termination = some r := by
  refine runsTo_induction (P := fun u => u.termination = some r) (fun u v hu huv => ?_) hs h
  rw [step_of_ended hu] at huv
  cases huv
  exact hu

/-- A run that still goes on had not ended where it started. -/
theorem runsTo_goes_on (h : RunsTo n s t) (ht : t.termination = none) : s.termination = none := by
  cases hs : s.termination with
  | none => rfl
  | some r => exact absurd ((runsTo_keeps_record hs h).symm.trans ht) (by simp)

/-- A run that still goes on is the same run under any budget that is not smaller. -/
theorem runsTo_withBudget (h : RunsTo n s t) (ht : t.termination = none) (hle : s.maxCycles ≤ budget) :
    RunsTo n (s.withBudget budget) (t.withBudget budget) := by
  induction n generalizing s with
  | zero =>
    obtain rfl := runsTo_zero.mp h
    exact runsTo_zero.mpr rfl
  | succ n ih =>
    obtain ⟨u, hsu, hut⟩ := runsTo_succ.mp h
    have hu : u.termination = none := runsTo_goes_on hut ht
    obtain ⟨-, i, hcompletes⟩ := completes_of_goes_on hsu hu
    exact runsTo_succ.mpr ⟨_, step_withBudget hsu hu hle, ih hut (hcompletes.maxCycles.trans_le hle)⟩

/-- A run that ends with `CycleLimitReached` took as many steps as its budget allowed, all of them completing, and the
step after them set the record and nothing else. -/
theorem run_to_cycleLimit (hs : s.termination = none) (hleft : s.cycles + n = s.maxCycles)
    (h : RunsTo (n + 1) s t) (ht : t.termination = some .cycleLimitReached) :
    ∃ u, RunsTo n s u ∧ u.termination = none ∧ t = u.ended .cycleLimitReached := by
  induction n generalizing s with
  | zero =>
    obtain ⟨v, hsv, hvt⟩ := runsTo_succ.mp h
    obtain rfl := runsTo_zero.mp hvt
    exact ⟨s, runsTo_zero.mpr rfl, hs, (ended_of_ends hsv hs ht).1⟩
  | succ n ih =>
    obtain ⟨v, hsv, hvt⟩ := runsTo_succ.mp h
    cases hv : v.termination with
    | none =>
      obtain ⟨-, i, hcompletes⟩ := completes_of_goes_on hsv hv
      have hleft' : v.cycles + n = v.maxCycles := by rw [hcompletes.cycles, hcompletes.maxCycles]; omega
      obtain ⟨u, hvu, hu, rfl⟩ := ih hv hleft' hvt
      exact ⟨u, runsTo_succ.mpr ⟨v, hsv, hvu⟩, hu, rfl⟩
    | some r =>
      obtain rfl : r = .cycleLimitReached := Option.some.inj ((runsTo_keeps_record hv hvt).symm.trans ht)
      obtain ⟨-, hreason | ⟨-, kind, hfault⟩⟩ := ended_of_ends hsv hs hv
      · rcases endReason_cases hreason with ⟨hr, -⟩ | ⟨-, -, hspent⟩
        · cases hr
        · omega
      · cases hfault

/-- Settles O55: the run is cut before the step that sets the record, and what comes before it does not depend on the
budget. -/
theorem runsArePrefixConsistent : Obligations.RunsArePrefixConsistent := by
  intro cfg image k k' t hlt h ht
  obtain ⟨u, hu, hnone, rfl⟩ := run_to_cycleLimit (State.launch_termination ..) (Nat.zero_add k) h ht
  rw [State.ended_withBudget hnone, ← State.launch_withBudget cfg image k]
  exact runsTo_withBudget hu hnone (Nat.le_of_lt hlt)

end Sys2Proof.Machine

/-! ## The family of spec/41_transfer.md: SET, PUT and GET -/

namespace Sys2Proof.Machine

variable {s t : State} {i : Instr} {b v : Byte}

/-! ### The register file: reading, and reading after a write (R22, R121) -/

/-- In a file of `NUM_REGS` registers every index below `NUM_REGS` has a value. -/
theorem reg_exists (hb : b.toNat < s.cfg.numRegs) (hlength : s.regs.length = s.cfg.numRegs) :
    ∃ x, s.regs[b.toNat]? = some x :=
  ⟨_, List.getElem?_eq_getElem (hlength ▸ hb)⟩

/-- A register that has been written reads back what was written; every other one reads as before. -/
theorem setReg_reg (hb : b.toNat < s.regs.length) (j : Nat) :
    (s.setReg b v).regs[j]? = if j = b.toNat then some v else s.regs[j]? := by
  by_cases hj : j = b.toNat
  · subst hj
    rw [State.setReg_regs, List.getElem?_set_self hb, if_pos rfl]
  · rw [State.setReg_regs, List.getElem?_set_ne (Ne.symm hj), if_neg hj]

/-! ### The meanings of SET, and of PUT and GET on either side of `NUM_REGS` (R120 to R122) -/

theorem exec_set (b : Byte) : exec (.set b) s = .next ((s.setAcc b).advance (s.pc + 2)) := rfl

theorem exec_put_inside (hb : b.toNat < s.cfg.numRegs) (hlength : s.regs.length = s.cfg.numRegs) :
    exec (.put b) s = .next ((s.setReg b s.acc).advance (s.pc + 2)) := by
  obtain ⟨x, hx⟩ := reg_exists hb hlength
  exact (exec_put b).trans (withReg_inside hb hx _)

theorem exec_put_outside (hb : s.cfg.numRegs ≤ b.toNat) :
    exec (.put b) s = .next (s.ended (.fault s.pc .invalidRegisterIndex)) :=
  (exec_put b).trans (withReg_outside hb _)

theorem exec_get_inside (hb : b.toNat < s.cfg.numRegs) (hv : s.regs[b.toNat]? = some v) :
    exec (.get b) s = .next ((s.setAcc v).advance (s.pc + 2)) :=
  (exec_get b).trans (withReg_inside hb hv _)

theorem exec_get_outside (hb : s.cfg.numRegs ≤ b.toNat) :
    exec (.get b) s = .next (s.ended (.fault s.pc .invalidRegisterIndex)) :=
  (exec_get b).trans (withReg_outside hb _)

/-! ### Instructions that complete and are no branches (R106, R107) -/

/-- An answer without a termination record is no fault, so the instruction completed. -/
theorem completes_of_exec (h : exec i s = .next t) (ht : t.termination = none) : Completes i s t := by
  rcases exec_cases h with rfl | hcompletes
  · cases ht
  · exact hcompletes

/-- What is no branch goes on to the instruction after it. -/
theorem exec_pc_of_not_branch (h : exec i s = .next t) (ht : t.termination = none)
    (hi : ¬(i.mnemonic = .bz ∨ i.mnemonic = .bcs ∨ i.mnemonic = .jmpi)) : t.pc = s.pc + (i.width : Int) := by
  cases i with
  | bz _ | bcs _ | jmpi _ => simp [Instr.mnemonic] at hi
  | put _ | get _ | add _ =>
    rcases withReg_cases h with ⟨-, rfl⟩ | ⟨v, -, -, hv⟩
    · cases ht
    · cases hv
      rfl
  | set _ | addi _ | subi _ | nop | halt =>
    cases h
    rfl

/-! ### The transfer laws (R123) -/

/-- PUT then GET of one register: GET reads what PUT has just written, which is `ACC`. -/
theorem put_then_get (hb : b.toNat < s.cfg.numRegs) (hlength : s.regs.length = s.cfg.numRegs) :
    ∃ t u, exec (.put b) s = .next t ∧ exec (.get b) t = .next u ∧ u.acc = s.acc := by
  have hread : (s.setReg b s.acc).regs[b.toNat]? = some s.acc := by
    rw [setReg_reg (hlength ▸ hb), if_pos rfl]
  exact ⟨_, _, exec_put_inside hb hlength, exec_get_inside hb hread, rfl⟩

/-- GET then PUT: `ACC` carries the value of the first register to the second. -/
theorem get_then_put {b' : Byte} (hb : b.toNat < s.cfg.numRegs) (hb' : b'.toNat < s.cfg.numRegs)
    (hlength : s.regs.length = s.cfg.numRegs) :
    ∃ t u x, exec (.get b) s = .next t ∧ exec (.put b') t = .next u ∧ s.regs[b.toNat]? = some x ∧
      u.acc = x ∧ u.regs = s.regs.set b'.toNat x := by
  obtain ⟨x, hx⟩ := reg_exists hb hlength
  exact ⟨_, _, x, exec_get_inside hb hx, exec_put_inside hb' hlength, hx, rfl, rfl⟩

/-- Settles O28: the two copies, and for the third clause that a transfer instruction is none of those that write a
flag, nor a branch. -/
theorem transferLaws : Obligations.TransferLaws := by
  refine ⟨fun _ _ => put_then_get, fun _ _ _ => get_then_put, fun b i s t hi h => ?_⟩
  have hflags : ¬(i.mnemonic = .add ∨ i.mnemonic = .addi ∨ i.mnemonic = .subi ∨ i.mnemonic = .nop) := by
    rcases hi with rfl | rfl | rfl <;> simp [Instr.mnemonic]
  have hbranch : ¬(i.mnemonic = .bz ∨ i.mnemonic = .bcs ∨ i.mnemonic = .jmpi) := by
    rcases hi with rfl | rfl | rfl <;> simp [Instr.mnemonic]
  have hwidth : i.width = 2 := by
    rcases hi with rfl | rfl | rfl <;> rfl
  obtain ⟨hz, hc⟩ := exec_keeps_flags h hflags
  refine ⟨hz, hc, fun ht => ⟨?_, (completes_of_exec h ht).cycles⟩⟩
  have hpc : t.pc = s.pc + (i.width : Int) := exec_pc_of_not_branch h ht hbranch
  rwa [hwidth] at hpc

/-! ### Each transfer instruction whole (R120 to R122) -/

/-- Settles O25: SET reads no register, so it completes from every state. -/
theorem setLoadsTheImmediate : Obligations.SetLoadsTheImmediate :=
  fun b _ => ⟨rfl, exec_set b⟩

/-- Settles O26: the two sides of `NUM_REGS`, and the register file read after the write. -/
theorem putCopiesAccToTheRegister : Obligations.PutCopiesAccToTheRegister := by
  intro b s
  refine ⟨rfl, fun hb hlength => ⟨exec_put_inside hb hlength, fun j _ => ?_⟩, exec_put_outside⟩
  exact setReg_reg (hlength ▸ hb) j

/-- Settles O27: the two sides of `NUM_REGS`; below it there is a value to copy. -/
theorem getCopiesTheRegisterToAcc : Obligations.GetCopiesTheRegisterToAcc := by
  intro b s
  refine ⟨rfl, fun hb hlength => ?_, exec_get_outside⟩
  obtain ⟨x, hx⟩ := reg_exists hb hlength
  exact ⟨x, hx, exec_get_inside hb hx⟩

end Sys2Proof.Machine

/-! ## The family of spec/42_arithmetic.md: ADD, ADDI and SUBI -/

namespace Sys2Proof.Machine

variable {s : State} {b x : Byte}

/-! ### The ALU: a wrapped result and its carry make up the exact one (R129) -/

theorem add_toNat_carry (a x : Byte) :
    (a + x).toNat + 256 * (decide (256 ≤ a.toNat + x.toNat)).toNat = a.toNat + x.toNat := by
  have ha := a.isLt
  have hx := x.isLt
  rw [BitVec.toNat_add]
  by_cases hcarry : 256 ≤ a.toNat + x.toNat
  · simp only [hcarry, decide_true, Bool.toNat_true]
    omega
  · simp only [hcarry, decide_false, Bool.toNat_false]
    omega

theorem sub_toNat_borrow (a x : Byte) :
    ((a - x).toNat : Int) - 256 * ((decide (a.toNat < x.toNat)).toNat : Int) = (a.toNat : Int) - x.toNat := by
  have ha := a.isLt
  have hx := x.isLt
  rw [BitVec.toNat_sub]
  by_cases hborrow : a.toNat < x.toNat
  · simp only [hborrow, decide_true, Bool.toNat_true]
    omega
  · simp only [hborrow, decide_false, Bool.toNat_false]
    omega

/-- SUBI's Carry in both polarities: no borrow occurs exactly when the immediate is at most `ACC` (R132). -/
theorem subiCarryFlag_lt (p : SubiCarry) (m n : Nat) :
    subiCarryFlag p (decide (m < n)) = if p = .borrow then decide (m < n) else decide (n ≤ m) := by
  cases p with
  | borrow => rfl
  | notBorrow =>
    rw [subiCarryFlag_notBorrow, if_neg (by decide), ← decide_not]
    exact decide_eq_decide.mpr Nat.not_lt

/-! ### The meanings of ADD on either side of `NUM_REGS`, of ADDI and of SUBI (R130 to R132) -/

theorem exec_add_inside (hb : b.toNat < s.cfg.numRegs) (hx : s.regs[b.toNat]? = some x) :
    exec (.add b) s =
      .next ((s.setArith (s.acc + x) (decide (256 ≤ s.acc.toNat + x.toNat))).advance (s.pc + 2)) := by
  rw [exec_add, withReg_inside hb hx, aluAdd_eq]
  rfl

theorem exec_add_outside (hb : s.cfg.numRegs ≤ b.toNat) :
    exec (.add b) s = .next (s.ended (.fault s.pc .invalidRegisterIndex)) :=
  (exec_add b).trans (withReg_outside hb _)

theorem exec_addi (b : Byte) :
    exec (.addi b) s =
      .next ((s.setArith (s.acc + b) (decide (256 ≤ s.acc.toNat + b.toNat))).advance (s.pc + 2)) := by
  rw [exec, execAddi, aluAdd_eq]
  rfl

theorem exec_subi (b : Byte) :
    exec (.subi b) s =
      .next ((s.setArith (s.acc - b) (subiCarryFlag s.cfg.subiCarry (decide (s.acc.toNat < b.toNat)))).advance
        (s.pc + 2)) := by
  rw [exec, execSubi, aluSub_eq]
  rfl

/-! ### The identities (R135) -/

/-- Settles O32: each instruction writes the ALU's result with the carry that makes it exact, and Z from that result. -/
theorem arithmeticIdentities : Obligations.ArithmeticIdentities := by
  refine ⟨fun b x s t hb hx h => ?add, fun b s t h => ?addi, fun b s t h => ?subi⟩
  case add =>
    rw [exec_add_inside hb hx] at h
    cases h
    exact ⟨add_toNat_carry s.acc x, zeroFlag_eq_true _⟩
  case addi =>
    rw [exec_addi] at h
    cases h
    exact ⟨add_toNat_carry s.acc b, zeroFlag_eq_true _⟩
  case subi =>
    rw [exec_subi] at h
    cases h
    refine ⟨fun hpolarity => ?_, zeroFlag_eq_true _⟩
    rw [State.advance_acc, State.advance_c, State.setArith_acc, State.setArith_c, hpolarity, subiCarryFlag_borrow]
    exact sub_toNat_borrow s.acc b

/-! ### Each arithmetic instruction whole (R130 to R132) -/

/-- Settles O29: the two sides of `NUM_REGS`; below it there is a value to add. -/
theorem addAddsTheRegister : Obligations.AddAddsTheRegister := by
  intro b s
  refine ⟨rfl, fun hb hlength => ?_, exec_add_outside⟩
  obtain ⟨x, hx⟩ := reg_exists hb hlength
  exact ⟨x, hx, exec_add_inside hb hx⟩

/-- Settles O30: ADDI reads no register, so it completes from every state. -/
theorem addiAddsTheImmediate : Obligations.AddiAddsTheImmediate :=
  fun b _ => ⟨rfl, exec_addi b⟩

/-- Settles O31: the meaning of SUBI, with its Carry written out for the two polarities. -/
theorem subiSubtractsTheImmediate : Obligations.SubiSubtractsTheImmediate := by
  intro b s
  refine ⟨rfl, ?_⟩
  rw [exec_subi, subiCarryFlag_lt]
  rfl

end Sys2Proof.Machine

/-! ## The family of spec/43_status.md: NOP -/

namespace Sys2Proof.Machine

variable {s : State}

/-! ### The meaning of NOP (R145) -/

/-- Carry is lost under `CLEAR` alone. -/
theorem nopCarryFlag_eq_ite (p : NopCarry) (c : Bool) : nopCarryFlag p c = if p = .clear then false else c := by
  cases p with
  | keep => rw [nopCarryFlag_keep, if_neg (by decide)]
  | clear => rw [nopCarryFlag_clear, if_pos rfl]

theorem exec_nop :
    exec .nop s =
      .next ((s.setFlags (zeroFlag s.acc) (nopCarryFlag s.cfg.nopCarry s.c)).advance (s.pc + 1)) := rfl

/-- Settles O34: NOP completes from every state; its Carry is written out for the two values of `NOP_CARRY`. -/
theorem nopRefreshesZero : Obligations.NopRefreshesZero := by
  intro s
  refine ⟨rfl, ?_⟩
  rw [exec_nop, nopCarryFlag_eq_ite]
  rfl

/-! ### Testing a register for zero (R146) -/

/-- Settles O35: GET leaves the register's value in `ACC` and keeps Carry; NOP then derives Z from that `ACC`. -/
theorem getThenNopTestsTheRegister : Obligations.GetThenNopTestsTheRegister := by
  intro i s hi hlength
  obtain ⟨x, hx⟩ := reg_exists hi hlength
  refine ⟨_, _, x, exec_get_inside hi hx, exec_nop, hx, rfl, zeroFlag_eq_true x, fun hkeep => ?_⟩
  calc nopCarryFlag s.cfg.nopCarry s.c
    _ = nopCarryFlag .keep s.c := by rw [hkeep]
    _ = s.c := nopCarryFlag_keep s.c

end Sys2Proof.Machine

/-! ## The family of spec/44_control.md: BZ, BCS and JMPI -/

namespace Sys2Proof.Machine

variable {s : State}

/-! ### The target and its range under either base (R150) -/

theorem branchBase_eq_ite (cfg : Config) (p next : Int) :
    branchBase cfg p next = if cfg.branchBase = .after then next else p := by
  unfold branchBase
  cases cfg.branchBase with
  | after => rw [if_pos rfl]
  | self => rw [if_neg (by decide)]

/-- The offset byte reaches 128 back from the base and 127 on. -/
theorem branchTarget_bounds (cfg : Config) (p next : Int) (b : Byte) :
    branchBase cfg p next - 128 ≤ branchTarget cfg p next b ∧
      branchTarget cfg p next b ≤ branchBase cfg p next + 127 := by
  obtain ⟨hlow, hhigh⟩ := sext8_bounds b
  unfold branchTarget
  omega

/-- Settles O37: the range is that of the offset byte, shifted by the base that the configuration chooses. -/
theorem branchTargetIsBasePlusOffset : Obligations.BranchTargetIsBasePlusOffset := by
  intro cfg p b
  obtain ⟨hlow, hhigh⟩ := branchTarget_bounds cfg p (p + 2) b
  refine ⟨?target, fun hafter => ?after, fun hself => ?self⟩
  case target => rw [branchTarget, branchBase_eq_ite, sext8_eq_toInt]
  case after =>
    have hbase : branchBase cfg p (p + 2) = p + 2 := by rw [branchBase_eq_ite, if_pos hafter]
    omega
  case self =>
    have hbase : branchBase cfg p (p + 2) = p := by rw [branchBase_eq_ite, hself, if_neg (by decide)]
    omega

/-! ### The meanings of the three branches (R151 to R153) -/

/-- Where a branch of two bytes goes, in terms of its own address. -/
theorem branchTo_eq_ite {m : Mnemonic} (hm : m.width = 2) (taken : Bool) (b : Byte) :
    s.branchTo m taken b = if taken = true then branchTarget s.cfg s.pc (s.pc + 2) b else s.pc + 2 := by
  have hnext : s.nextPc m = s.pc + 2 := by rw [State.nextPc, hm, Nat.cast_ofNat]
  rw [State.branchTo, hnext]

theorem exec_bz (b : Byte) :
    exec (.bz b) s =
      .next (s.advance (if s.z = true then branchTarget s.cfg s.pc (s.pc + 2) b else s.pc + 2)) := by
  rw [exec, execBz, branchTo_eq_ite rfl]

theorem exec_bcs (b : Byte) :
    exec (.bcs b) s =
      .next (s.advance (if s.c = true then branchTarget s.cfg s.pc (s.pc + 2) b else s.pc + 2)) := by
  rw [exec, execBcs, branchTo_eq_ite rfl]

/-- JMPI is a branch that is always taken. -/
theorem exec_jmpi (b : Byte) :
    exec (.jmpi b) s = .next (s.advance (branchTarget s.cfg s.pc (s.pc + 2) b)) := by
  rw [exec, execJmpi, branchTo_eq_ite rfl, if_pos rfl]

/-! ### Each branch whole (R151 to R153) -/

/-- Settles O38: BZ completes from every state, and `State.advance` writes only `pc` and CYCLES. -/
theorem bzBranchesIfZero : Obligations.BzBranchesIfZero :=
  fun b _ => ⟨rfl, exec_bz b⟩

/-- Settles O39: BCS likewise, with Carry for Zero. -/
theorem bcsBranchesIfCarry : Obligations.BcsBranchesIfCarry :=
  fun b _ => ⟨rfl, exec_bcs b⟩

/-- Settles O40: JMPI reads no flag, so its target stands without a condition. -/
theorem jmpiJumps : Obligations.JmpiJumps :=
  fun b _ => ⟨rfl, exec_jmpi b⟩

end Sys2Proof.Machine

/-! ## The family of spec/45_halt.md: HALT and what comes after it -/

namespace Sys2Proof.Machine

variable {s t : State} {r : Termination} {n : Nat}

/-! ### Runs of a machine that has stopped (R36, R166) -/

/-- A run from an ended state stays where it is (R36). -/
theorem runsTo_of_ended (hs : s.termination = some r) (h : RunsTo n s t) : t = s := by
  refine runsTo_induction (P := fun u => u = s) (fun u v hu huv => ?_) rfl h
  subst hu
  rw [step_of_ended hs] at huv
  cases huv
  rfl

/-- Where a run that had not ended goes from a halted state: its first step records `Halted`, and no later one does
anything. -/
theorem runsTo_of_halted (hhalted : s.halted = true) (hs : s.termination = none) (h : RunsTo (n + 1) s t) :
    t = s.ended .halted := by
  obtain ⟨u, hu, hut⟩ := runsTo_succ.mp h
  rw [step_of_endReason hs (endReason_halted hhalted)] at hu
  cases hu
  exact runsTo_of_ended (State.ended_termination s .halted) hut

/-- Settles O43: a run from a halted state stays in it, or ends it with `Halted`, which writes only the record. -/
theorem nothingHappensAfterHalt : Obligations.NothingHappensAfterHalt := by
  intro s t n hhalted h
  cases hs : s.termination with
  | some r =>
    obtain rfl := runsTo_of_ended hs h
    exact ⟨rfl, rfl, rfl, rfl, fun hnone => nomatch hnone⟩
  | none =>
    cases n with
    | zero =>
      obtain rfl := runsTo_zero.mp h
      exact ⟨rfl, rfl, rfl, rfl, fun _ hpos => absurd hpos (Nat.lt_irrefl 0)⟩
    | succ n =>
      obtain rfl := runsTo_of_halted hhalted hs h
      exact ⟨State.ended_engine s .halted, State.ended_cfg s .halted, State.ended_image s .halted,
        State.ended_maxCycles s .halted, fun _ _ => State.ended_termination s .halted⟩

/-! ### HALT whole (R165) -/

/-- Settles O42: the state HALT leaves is halted, and `State.endReason` asks for HALTED before the budget, so the end is
`Halted` also where no budget is left. -/
theorem haltStopsTheEngine : Obligations.HaltStopsTheEngine := by
  refine fun s => ⟨rfl, exec_halt, fun hs t h => ?_⟩
  have hhalted : t.halted = true := by rw [exec_halted h, decide_eq_true rfl, Bool.or_true]
  have hrecord : t.termination = none := by
    rw [exec_halt] at h
    cases h
    exact hs
  exact step_of_endReason hrecord (endReason_halted hhalted)

end Sys2Proof.Machine

/-! ## The family of spec/60_exceptions.md: the fault at the register port -/

namespace Sys2Proof.Machine

variable {s t : State} {i : Instr} {b : Byte}

/-! ### `InvalidRegisterIndex` (R171) -/

/-- The three instructions with a register operand share one fault, which writes only the record. -/
theorem exec_reg_outside (hi : i = .put b ∨ i = .get b ∨ i = .add b) (hb : s.cfg.numRegs ≤ b.toNat) :
    exec i s = .next (s.ended (.fault s.pc .invalidRegisterIndex)) := by
  rcases hi with rfl | rfl | rfl
  · exact exec_put_outside hb
  · exact exec_get_outside hb
  · exact exec_add_outside hb

/-- The record's frame: an instruction whose register operand, if it has one, is below `NUM_REGS` leaves it alone. -/
theorem exec_termination_of_reg_inside (h : exec i s = .next t)
    (hinside : ∀ b, i = .put b ∨ i = .get b ∨ i = .add b → b.toNat < s.cfg.numRegs) :
    t.termination = s.termination := by
  cases i with
  | put b | get b | add b =>
    rcases withReg_cases h with ⟨houtside, -⟩ | ⟨v, -, -, hv⟩
    · exact absurd (hinside b (by simp)) (Nat.not_lt.mpr houtside)
    · cases hv
      rfl
  | set _ | addi _ | subi _ | nop | bz _ | bcs _ | jmpi _ | halt =>
    cases h
    rfl

/-- Settles O48: a bad index faults by the three meanings' common fault, and without one the record's frame leaves
nothing that could have changed the record. -/
theorem registerIndexFault : Obligations.RegisterIndexFault := by
  refine ⟨fun b i s hi hb => exec_reg_outside hi hb, fun i s t h hchanged => ?_⟩
  by_contra hnone
  have hinside : ∀ b, i = .put b ∨ i = .get b ∨ i = .add b → b.toNat < s.cfg.numRegs :=
    fun b hi => Nat.not_le.mp fun hb => hnone ⟨b, hi, hb⟩
  exact hchanged (exec_termination_of_reg_inside h hinside)

end Sys2Proof.Machine

/-! ## The two directions of the encoding, and the fetch of what decodes (spec/30_encoding.md, spec/40_cycle.md) -/

namespace Sys2Proof

variable {o : OpcodeMap} {op b : Byte} {m : Mnemonic} {kind : OperandKind} {i : Instr}
  {bytes rest more : List Byte} {is : List Instr}

/-! ### Decoding and encoding, format by format (R66, R67) -/

theorem decode_f1 (hm : decodeOpcode o op = some m) (hk : m.operandKind = none) :
    decode o (op :: rest) = .ok (m.instr 0, rest) := by
  simp only [decode, hm, hk]

theorem decode_f2 (hm : decodeOpcode o op = some m) (hk : m.operandKind = some kind) :
    decode o (op :: b :: rest) = .ok (m.instr b, rest) := by
  simp only [decode, hm, hk]

theorem encode_f1 (hk : m.operandKind = none) : encode o (m.instr b) = [o.byte m] := by
  cases m with
  | nop | halt => rfl
  | set | put | get | add | addi | subi | bz | bcs | jmpi => cases hk

theorem encode_f2 (hk : m.operandKind = some kind) : encode o (m.instr b) = [o.byte m, b] := by
  cases m with
  | nop | halt => cases hk
  | set | put | get | add | addi | subi | bz | bcs | jmpi => rfl

/-- Every instruction is a mnemonic with a byte for its operand. -/
theorem Instr.exists_eq_instr (i : Instr) : ∃ (m : Mnemonic) (b : Byte), i = m.instr b := by
  refine ⟨i.mnemonic, ?_⟩
  cases i with
  | nop | halt => exact ⟨0, rfl⟩
  | set b | put b | get b | add b | addi b | subi b | bz b | bcs b | jmpi b => exact ⟨b, rfl⟩

theorem length_encode (o : OpcodeMap) (i : Instr) : (encode o i).length = i.width := by
  simpa [encodeAll] using length_encodeAll o [i]

/-! ### The round trips (R66, R71) -/

theorem decode_encode (ho : o.injective = true) (i : Instr) (rest : List Byte) :
    decode o (encode o i ++ rest) = .ok (i, rest) := by
  obtain ⟨m, b, rfl⟩ := i.exists_eq_instr
  have hm : decodeOpcode o (o.byte m) = some m := decodeOpcode_byte ho m
  cases hk : m.operandKind with
  | none => rw [encode_f1 hk, Mnemonic.instr_of_f1 hk]; exact decode_f1 hm hk
  | some kind => rw [encode_f2 hk]; exact decode_f2 hm hk

/-- Settles O1: the lookup gives the mnemonic back, and the format says how many bytes are the instruction's. -/
theorem decodeOfEncodeIsTheInstruction : Obligations.DecodeOfEncodeIsTheInstruction :=
  fun o i rest ho => ⟨decode_encode ho i rest, length_encode o i⟩

/-- Settles O2: the opcode byte is that of the mnemonic found, and a format's other byte is the operand itself. -/
theorem encodeOfDecodeIsTheBytes : Obligations.EncodeOfDecodeIsTheBytes := by
  intro o bytes rest i h
  cases bytes with
  | nil => cases h
  | cons op bytes =>
    obtain ⟨m, hm, ⟨hf1, rfl, rfl⟩ | ⟨kind, b, hf2, rfl, rfl⟩⟩ := decode_cases h
    · rw [encode_f1 hf1, decodeOpcode_some hm, List.singleton_append]
    · rw [encode_f2 hf2, decodeOpcode_some hm, List.cons_append, List.singleton_append]

/-- The decoder looks at no byte beyond the instruction it answers. -/
theorem decode_append (h : decode o bytes = .ok (i, rest)) : decode o (bytes ++ more) = .ok (i, rest ++ more) := by
  cases bytes with
  | nil => cases h
  | cons op bytes =>
    obtain ⟨m, hm, ⟨hf1, rfl, rfl⟩ | ⟨kind, b, hf2, rfl, rfl⟩⟩ := decode_cases h
    · exact decode_f1 hm hf1
    · exact decode_f2 hm hf2

/-- Where the bytes of the instructions before it end, the decoder reads the instruction of that number (R83). -/
theorem decode_encodeAll_drop (ho : o.injective = true) {k : Nat} (hi : is[k]? = some i) :
    decode o ((encodeAll o is).drop (encodeAll o (is.take k)).length) = .ok (i, encodeAll o (is.drop (k + 1))) := by
  obtain ⟨hk, rfl⟩ := List.getElem?_eq_some_iff.mp hi
  have hsplit : encodeAll o is = encodeAll o (is.take k) ++ (encode o is[k] ++ encodeAll o (is.drop (k + 1))) := by
    conv_lhs => rw [← List.take_append_drop k is, List.drop_eq_getElem_cons hk]
    simp only [encodeAll, List.flatMap_append, List.flatMap_cons]
  rw [hsplit, List.drop_left]
  exact decode_encode ho _ _

/-! ### The reference map (R70, R73) -/

/-- The opcode bytes of `REF` are 1 to 11, and no others. -/
theorem exists_ref_byte_iff (op : Byte) : (∃ m, OpcodeMap.ref.byte m = op) ↔ 1 ≤ op.toNat ∧ op.toNat ≤ 11 := by
  constructor
  · rintro ⟨m, rfl⟩
    cases m <;> decide
  · rintro ⟨hlow, hhigh⟩
    have hall : ∀ n < 11, ∃ m ∈ Mnemonic.all, (OpcodeMap.ref.byte m).toNat = n + 1 := by decide
    obtain ⟨m, -, hm⟩ := hall (op.toNat - 1) (by omega)
    exact ⟨m, BitVec.eq_of_toNat_eq (by omega)⟩

theorem decodeOpcode_ref_eq_none_iff (op : Byte) :
    decodeOpcode OpcodeMap.ref op = none ↔ op = 0 ∨ 0x0C ≤ op.toNat := by
  have hzero : op = 0 ↔ op.toNat = 0 := BitVec.toNat_inj.symm
  rw [decodeOpcode_eq_none_iff, ← not_exists, exists_ref_byte_iff, hzero]
  omega

/-- From 12 on no number below 256 is an opcode byte of `REF`. -/
theorem decodeOpcode_ref_of_ge {n : Nat} (hlow : 12 ≤ n) (hhigh : n < 256) :
    decodeOpcode OpcodeMap.ref (BitVec.ofNat 8 n) = none := by
  have hbyte : (BitVec.ofNat 8 n).toNat = n := Nat.mod_eq_of_lt hhigh
  exact (decodeOpcode_ref_eq_none_iff _).mpr (.inr (by omega))

/-- Settles O4: of the 256 numbers one below 12 is no opcode, and all the 244 from 12 on are none. -/
theorem illegalOpcodesUnderRef : Obligations.IllegalOpcodesUnderRef := by
  refine ⟨by decide, decodeOpcode_ref_eq_none_iff, ?_⟩
  have hrange : List.range 256 = List.range 12 ++ (List.range 244).map (12 + ·) :=
    List.range_add (n := 12) (m := 244)
  have hhigh : ∀ n ∈ (List.range 244).map (12 + ·),
      (decodeOpcode OpcodeMap.ref (BitVec.ofNat 8 n)).isNone = true := by
    intro n hn
    obtain ⟨k, hk, rfl⟩ := List.mem_map.mp hn
    have hk' : k < 244 := List.mem_range.mp hk
    exact Option.isNone_iff_eq_none.mpr (decodeOpcode_ref_of_ge (by omega) (by omega))
  rw [hrange, List.countP_append, List.countP_eq_length.mpr hhigh, List.length_map, List.length_range]
  decide

/-- Settles O6: each word is a closed decoding, which computes. -/
theorem wordsOfEveryFamilyDecode : Obligations.WordsOfEveryFamilyDecode :=
  ⟨rfl, rfl, rfl, rfl, rfl⟩

end Sys2Proof

namespace Sys2Proof.Machine

variable {s : State} {i : Instr} {f : Instr → Result} {rest code : List Byte} {nbits w : Nat}

/-! ### `MemRead` and the fetch, by the bytes of the image (R48, R102, R105) -/

/-- Settles O15: outside the bounds `MemRead` raises; inside, a canonical image has a byte to go on with. -/
theorem memReadIsBoundsChecked : Obligations.MemReadIsBoundsChecked := by
  refine fun s a f hwf => ⟨fun hout => memRead_outside hout f, fun h0 hN => ?_⟩
  obtain ⟨b, hb⟩ := read_exists hwf h0 hN
  exact ⟨b, (Memory.read_of_wf hwf _).symm.trans hb, memRead_inside h0 hN hb f⟩

/-- Settles O17: the check of the opcode's address comes first. -/
theorem fetchOutsideTheImageFaults : Obligations.FetchOutsideTheImageFaults := by
  intro s hcan hout
  rw [step_of_canStep hcan]
  exact fetch_outside hout

/-- The fetch reads, byte by byte, what the decoder reads from the image at `pc`. -/
theorem fetch_of_decode (hwf : s.image.wf = true) (h0 : 0 ≤ s.pc)
    (hd : decode s.cfg.opc (s.image.bytes.drop s.pc.toNat) = .ok (i, rest)) : s.fetch f = f i := by
  have hbyte (k : Nat) : s.image.bytes[s.pc.toNat + k]? = (s.image.bytes.drop s.pc.toNat)[k]? :=
    List.getElem?_drop.symm
  cases hdrop : s.image.bytes.drop s.pc.toNat with
  | nil =>
    rw [hdrop] at hd
    cases hd
  | cons op bytes =>
    rw [hdrop] at hd hbyte
    have hop : s.image.bytes[s.pc.toNat]? = some op := hbyte 0
    obtain ⟨m, hm, ⟨hf1, rfl, rfl⟩ | ⟨kind, b, hf2, rfl, rfl⟩⟩ := decode_cases hd
    · exact fetch_f1 hwf h0 hop hm hf1
    · rw [fetch_f2 hwf h0 hop hm hf2]
      refine memRead_byte hwf (by omega) ?_ _
      rw [show (s.pc + 1).toNat = s.pc.toNat + 1 by omega]
      exact hbyte 1

theorem step_of_decode (hcan : CanStep s) (hwf : s.image.wf = true) (h0 : 0 ≤ s.pc)
    (hd : decode s.cfg.opc (s.image.bytes.drop s.pc.toNat) = .ok (i, rest)) : step s = exec i s :=
  (step_of_canStep hcan).trans (fetch_of_decode hwf h0 hd)

/-- Settles O16: an engine that can step fetches, and the fetch goes on with what the decoder reads. -/
theorem stepRunsTheDecodedInstruction : Obligations.StepRunsTheDecodedInstruction :=
  fun _ _ _ => step_of_decode

/-- An engine that holds a program's encoding, at the address of one of its instructions, runs that instruction. -/
theorem step_of_encodeAll {o : OpcodeMap} {is : List Instr} {k : Nat} (ho : o.injective = true)
    (hi : is[k]? = some i) (hopc : s.cfg.opc = o) (himage : s.image = Memory.ofBytes (encodeAll o is))
    (hpc : s.pc = (encodeAll o (is.take k)).length) (hcan : CanStep s) : step s = exec i s := by
  refine step_of_decode (rest := encodeAll o (is.drop (k + 1))) hcan ?_ (by omega) ?_
  · rw [himage]
    exact Memory.ofBytes_wf _
  · rw [hopc, himage, Memory.bytes_ofBytes, hpc, Int.toNat_natCast]
    exact decode_encodeAll_drop ho hi

/-! ### The loader -/

/-- From the place of a store on, the image begins with what was stored. -/
theorem Memory.drop_bytes_store (m : Memory) (a : Nat) (new : List Byte) :
    ∃ more, (m.store a new).bytes.drop a = new ++ more := by
  rw [Memory.bytes_store, List.append_assoc, List.drop_left' (Memory.length_filled m a)]
  exact ⟨_, rfl⟩

/-- An engine in which code has been placed can step: the record is cleared, HALTED too, and a cycle is left. -/
theorem placeCode_canStep (s : State) (code : List Byte) : CanStep (s.placeCode code) :=
  ⟨rfl, rfl, Nat.le_max_right s.maxCycles (s.cycles + 1)⟩

theorem step_placeCode (hd : decode OpcodeMap.ref code = .ok (i, rest)) :
    step (s.placeCode code) = exec i (s.placeCode code) := by
  obtain ⟨more, hmore⟩ := Memory.drop_bytes_store s.image s.pc.toNat code
  have hfetched : decode OpcodeMap.ref ((s.image.store s.pc.toNat code).bytes.drop s.pc.toNat) =
      .ok (i, rest ++ more) := by
    rw [hmore]
    exact decode_append hd
  exact step_of_decode (placeCode_canStep s code) (Memory.store_wf ..) (Int.natCast_nonneg _) hfetched

theorem decodeTableWord_eq_some (h : decodeTableWord nbits w = some i) :
    ∃ rest, decode OpcodeMap.ref (tableBytes nbits w) = .ok (i, rest) := by
  unfold decodeTableWord at h
  split at h
  · cases h
    exact ⟨_, ‹_›⟩
  · cases h

/-- Settles O7: a table word's instruction is what its bytes decode to, and those bytes are what is placed. -/
theorem placedTableWordIsTheNextInstruction : Obligations.PlacedTableWordIsTheNextInstruction := by
  intro s nbits w i h
  obtain ⟨rest, hd⟩ := decodeTableWord_eq_some h
  exact step_placeCode hd

end Sys2Proof.Machine

/-! ## The invariant of a run, and what no step changes (spec/10_state.md) -/

namespace Sys2Proof.Machine

variable {s t : State} {i : Instr} {b : Byte} {r : Termination} {f : Instr → Result}

/-! ### The inputs of the run (R39) -/

/-- Settles O14: setting the record changes no input, and neither does an instruction that completes. -/
theorem stepKeepsTheInputsOfTheRun : Obligations.StepKeepsTheInputsOfTheRun := by
  intro s t h
  rcases step_cases h with ⟨-, rfl⟩ | ⟨-, r, -, rfl⟩ | ⟨-, -, ⟨k, rfl⟩ | ⟨i, -, -, hcompletes⟩⟩
  · exact ⟨rfl, rfl, rfl⟩
  · exact ⟨rfl, rfl, rfl⟩
  · exact ⟨rfl, rfl, rfl⟩
  · exact ⟨hcompletes.cfg, hcompletes.image, hcompletes.maxCycles⟩

/-! ### The record agrees with the rest (R36, R101, R108) -/

theorem recordAgrees_of_none (h : s.termination = none) : s.recordAgrees = true := by
  simp [State.recordAgrees, h]

/-- The record of an engine that cannot step: within the budget, a spent budget is one that is exactly used up. -/
theorem recordAgrees_endReason (hr : s.endReason = some r) (hbudget : s.cycles ≤ s.maxCycles) :
    (s.ended r).recordAgrees = true := by
  rcases endReason_cases hr with ⟨rfl, hhalted⟩ | ⟨rfl, hhalted, hspent⟩
  · exact hhalted
  · have hcycles : s.cycles = s.maxCycles := Nat.le_antisymm hbudget hspent
    simp [State.recordAgrees, hhalted, hcycles]

theorem recordAgrees_fault {k : FaultKind} (hgo : s.endReason = none) :
    (s.ended (.fault s.pc k)).recordAgrees = true := by
  obtain ⟨hhalted, hbudget⟩ := endReason_eq_none.mp hgo
  simp [State.recordAgrees, hhalted, hbudget]

/-- Setting the record touches no other clause of the invariant. -/
theorem ended_wf (hwf : s.wf = true) (hrecord : (s.ended r).recordAgrees = true) : (s.ended r).wf = true := by
  obtain ⟨hcfg, himage, hregs, hcycles, hpc, -⟩ := State.wf_iff.mp hwf
  exact State.wf_iff.mpr ⟨hcfg, himage, hregs, hcycles, hpc, hrecord⟩

/-! ### `pc` stays near the image (R25) -/

theorem branchBase_bounds (cfg : Config) (p : Int) :
    p ≤ branchBase cfg p (p + 2) ∧ branchBase cfg p (p + 2) ≤ p + 2 := by
  rw [branchBase_eq_ite]
  split <;> omega

/-- An instruction that lies inside the image moves `pc` past itself or to a target within reach of its offset byte. -/
theorem completes_pc_bounds (h : Completes i s t) (h0 : 0 ≤ s.pc) (hN : s.pc + (i.width : Int) ≤ s.image.length) :
    -128 ≤ t.pc ∧ t.pc ≤ (s.image.length : Int) + 127 := by
  rcases h.pc with hnext | ⟨hwidth, off, htarget⟩
  · omega
  · obtain ⟨hbase, hbase'⟩ := branchBase_bounds s.cfg s.pc
    obtain ⟨hlow, hhigh⟩ := branchTarget_bounds s.cfg s.pc (s.pc + 2) off
    omega

/-- Completing an instruction keeps the invariant: a cycle was left, and the record stays empty. -/
theorem completes_wf (hwf : s.wf = true) (hcan : CanStep s) (h : Completes i s t) (h0 : 0 ≤ s.pc)
    (hN : s.pc + (i.width : Int) ≤ s.image.length) : t.wf = true := by
  obtain ⟨hcfg, himage, hregs, -, -, -⟩ := State.wf_iff.mp hwf
  obtain ⟨hnone, -, hbudget⟩ := hcan
  refine State.wf_iff.mpr ⟨?_, ?_, ?_, ?_, ?_, recordAgrees_of_none (h.termination.trans hnone)⟩
  · rwa [h.cfg]
  · rwa [h.image]
  · rw [h.regsLength, h.cfg, hregs]
  · rw [h.cycles, h.maxCycles]
    exact hbudget
  · rw [h.image]
    exact completes_pc_bounds h h0 hN

/-- Settles O11, by what a step can do: nothing, record an end, record a fault, or complete an instruction. -/
theorem stepKeepsTheInvariant : Obligations.StepKeepsTheInvariant := by
  intro s t hwf h
  rcases step_cases h with ⟨-, rfl⟩ | ⟨-, r, hr, rfl⟩ | ⟨hnone, hgo, ⟨k, rfl⟩ | ⟨i, h0, hN, hcompletes⟩⟩
  · exact hwf
  · obtain ⟨-, -, -, hbudget, -, -⟩ := State.wf_iff.mp hwf
    exact ended_wf hwf (recordAgrees_endReason hr hbudget)
  · exact ended_wf hwf (recordAgrees_fault hgo)
  · exact completes_wf hwf (canStep_iff.mpr ⟨hnone, hgo⟩) hcompletes h0 hN

theorem launch_wf {cfg : Config} (hcfg : cfg.wellFormed = true) (bytes : List Byte) (maxCycles : Nat) :
    (State.launch cfg bytes maxCycles).wf = true := by
  refine State.wf_iff.mpr ⟨hcfg, Memory.ofBytes_wf bytes, List.length_replicate, Nat.zero_le _, ?_, rfl⟩
  rw [State.launch_pc]
  omega

/-- Settles O9: reset is a launch, and the default parameters are admitted. -/
theorem launchMeetsTheInvariant : Obligations.LaunchMeetsTheInvariant :=
  ⟨launch_wf (by decide) [] 0, rfl, fun _ bytes maxCycles hcfg => launch_wf hcfg bytes maxCycles⟩

/-! ### From the invariant the engine never blocks -/

theorem memRead_answers {a : Int} {k : Byte → Result} (hwf : s.image.wf = true) (hk : ∀ b, ∃ t, k b = .next t) :
    ∃ t, s.memRead a k = .next t := by
  by_cases hin : 0 ≤ a ∧ a < s.image.length
  · obtain ⟨b, hb⟩ := read_exists hwf hin.1 hin.2
    rw [memRead_inside hin.1 hin.2 hb]
    exact hk b
  · exact ⟨_, memRead_outside (by omega) k⟩

theorem withReg_answers {k : Byte → Result} (hlength : s.regs.length = s.cfg.numRegs) (hk : ∀ v, ∃ t, k v = .next t) :
    ∃ t, s.withReg b k = .next t := by
  by_cases hb : b.toNat < s.cfg.numRegs
  · obtain ⟨v, hv⟩ := reg_exists hb hlength
    rw [withReg_inside hb hv]
    exact hk v
  · exact ⟨_, withReg_outside (Nat.not_lt.mp hb) k⟩

theorem exec_answers (hlength : s.regs.length = s.cfg.numRegs) (i : Instr) : ∃ t, exec i s = .next t := by
  cases i with
  | put _ | get _ | add _ => exact withReg_answers hlength fun _ => ⟨_, rfl⟩
  | set _ | addi _ | subi _ | nop | bz _ | bcs _ | jmpi _ | halt => exact ⟨_, rfl⟩

theorem fetch_answers (hwf : s.image.wf = true) (hf : ∀ i, ∃ t, f i = .next t) : ∃ t, s.fetch f = .next t := by
  refine memRead_answers hwf fun op => ?_
  cases decodeOpcode s.cfg.opc op with
  | none => exact ⟨_, rfl⟩
  | some m =>
    dsimp only
    cases m.operandKind with
    | none => exact hf _
    | some kind => exact memRead_answers hwf fun b => hf _

/-- Settles O12: the reads find their byte in a canonical image and their register in a full file. -/
theorem noStepFromTheInvariantStops : Obligations.NoStepFromTheInvariantStops := by
  intro s hwf
  obtain ⟨-, himage, hlength, -, -, -⟩ := State.wf_iff.mp hwf
  cases hs : s.termination with
  | some r => exact ⟨s, step_of_ended hs⟩
  | none =>
    cases hr : s.endReason with
    | some r => exact ⟨_, step_of_endReason hs hr⟩
    | none =>
      rw [step_of_canStep (canStep_iff.mpr ⟨hs, hr⟩)]
      exact fetch_answers himage (exec_answers hlength)

/-! ### An ended run (R36, R100) -/

theorem runsTo_self_of_ended (hs : s.termination = some r) (n : Nat) : RunsTo n s s := by
  induction n with
  | zero => exact runsTo_zero.mpr rfl
  | succ n ih => exact runsTo_succ.mpr ⟨s, step_of_ended hs, ih⟩

/-- Settles O21, by induction on the number of steps. -/
theorem endedRunStaysAsItIs : Obligations.EndedRunStaysAsItIs := by
  intro s n hs
  obtain ⟨r, hr⟩ := Option.isSome_iff_exists.mp hs
  exact runsTo_self_of_ended hr n

/-! ### A hardware PC that wraps (R25, decision D7) -/

/-- Settles O51: of the values `pc` can have, those below 0 wrap to the top 128 addresses of the hardware PC, which lie
beyond the image, and the others do not wrap. -/
theorem wrappedPcAgrees : Obligations.WrappedPcAgrees := by
  intro s w hwf hw hwide
  obtain ⟨-, -, -, -, ⟨hlow, hhigh⟩, -⟩ := State.wf_iff.mp hwf
  have hwide' : (s.image.length : Int) + 128 ≤ 2 ^ w := by exact_mod_cast hwide
  have hboard : s.boardPc = some (s.pc % 2 ^ w).toNat := by simp [State.boardPc, hw]
  refine ⟨_, hboard, ?_⟩
  by_cases hneg : s.pc < 0
  · have hwrap : s.pc % 2 ^ w = s.pc + 2 ^ w := by
      rw [← Int.add_emod_right, Int.emod_eq_of_lt (by omega) (by omega)]
    omega
  · have hsame : s.pc % 2 ^ w = s.pc := Int.emod_eq_of_lt (by omega) (by omega)
    omega

end Sys2Proof.Machine

/-! ## Which instruction writes what (spec/10_state.md, spec/42_arithmetic.md to spec/44_control.md) -/

namespace Sys2Proof.Machine

variable {s t : State} {i : Instr}

/-! ### The register file and `ACC` (R21, R24) -/

/-- The register file after an instruction: as before, or, after a PUT, with `ACC` in the register it names. -/
theorem exec_regs (h : exec i s = .next t) :
    t.regs = s.regs ∨ ∃ b, i = .put b ∧ t.regs = s.regs.set b.toNat s.acc := by
  cases i with
  | put b =>
    rcases withReg_cases h with ⟨-, rfl⟩ | ⟨v, -, -, hv⟩
    · exact .inl rfl
    · cases hv
      exact .inr ⟨b, rfl, rfl⟩
  | get _ | add _ =>
    rcases withReg_cases h with ⟨-, rfl⟩ | ⟨v, -, -, hv⟩
    · exact .inl rfl
    · cases hv
      exact .inl rfl
  | set _ | addi _ | subi _ | nop | bz _ | bcs _ | jmpi _ | halt =>
    cases h
    exact .inl rfl

/-- Settles O45: an index whose value changed is the one that was written. -/
theorem onlyPutWritesARegister : Obligations.OnlyPutWritesARegister := by
  intro i s t j h hchanged
  rcases exec_regs h with hsame | ⟨b, hi, hset⟩
  · exact absurd (congrArg (·[j]?) hsame) hchanged
  · refine ⟨b, hi, ?_⟩
    by_contra hj
    rw [hset, List.getElem?_set_ne (Ne.symm hj)] at hchanged
    exact hchanged rfl

/-- The frame of `ACC`: PUT, NOP, the branches and HALT leave it alone, PUT also where it faults. -/
theorem exec_keeps_acc (h : exec i s = .next t)
    (hi : ¬(i.mnemonic = .set ∨ i.mnemonic = .get ∨ i.mnemonic = .add ∨ i.mnemonic = .addi ∨ i.mnemonic = .subi)) :
    t.acc = s.acc := by
  cases i with
  | set _ | get _ | add _ | addi _ | subi _ => simp [Instr.mnemonic] at hi
  | put _ =>
    rcases withReg_cases h with ⟨-, rfl⟩ | ⟨v, -, -, hv⟩
    · rfl
    · cases hv
      rfl
  | nop | bz _ | bcs _ | jmpi _ | halt =>
    cases h
    rfl

/-- Settles O46, by the frame of `ACC`. -/
theorem onlyFiveInstructionsWriteAcc : Obligations.OnlyFiveInstructionsWriteAcc := by
  intro i s t h hchanged
  by_contra hi
  exact hchanged (exec_keeps_acc h hi)

/-! ### Corner cases of ADDI and NOP (R131, R145) -/

/-- Modulo 256, adding 255 is subtracting 1. -/
theorem byte_add_255 (a : Byte) : a + 255 = a - 1 := by
  bv_omega

theorem byte_eq_zero_iff (a : Byte) : a = 0 ↔ a.toNat < 1 := by
  bv_omega

/-- Settles O33: the results agree modulo 256, while a carry out of ACC + 255 needs an ACC of 1 or more and a borrow of
ACC - 1 an ACC of 0. -/
theorem addiCornerCases : Obligations.AddiCornerCases := by
  refine ⟨fun s t u ht hu => ?_, fun s t ht => ?_⟩
  · rw [exec_addi] at ht
    rw [exec_subi] at hu
    cases ht
    cases hu
    have hacc : s.acc + 255 = s.acc - 1 := byte_add_255 s.acc
    refine ⟨hacc, congrArg zeroFlag hacc, ?_, fun hpolarity => ?_⟩
    · have h255 : (255 : Byte).toNat = 255 := rfl
      rw [State.advance_c, State.setArith_c, decide_eq_true_eq, Ne, byte_eq_zero_iff, h255]
      omega
    · have h1 : (1 : Byte).toNat = 1 := rfl
      rw [State.advance_c, State.setArith_c, hpolarity, subiCarryFlag_borrow, decide_eq_true_eq,
        byte_eq_zero_iff, h1]
  · rw [exec_addi] at ht
    cases ht
    have hbound : ¬256 ≤ s.acc.toNat + (0 : Byte).toNat := Nat.not_le.mpr s.acc.isLt
    have hacc : s.acc + 0 = s.acc := BitVec.add_zero s.acc
    refine ⟨hacc, decide_eq_false hbound, ?_⟩
    rw [State.advance_z, State.setArith_z, zeroFlag_eq_true, hacc]

/-- Settles O36: NOP derives Z from an `ACC` that it does not write, and clearing Carry twice is clearing it once. -/
theorem secondNopOnlyAdvances : Obligations.SecondNopOnlyAdvances := by
  intro s t u ht hu
  rw [exec_nop] at ht hu
  cases ht
  cases hu
  have hcarry : nopCarryFlag s.cfg.nopCarry (nopCarryFlag s.cfg.nopCarry s.c) = nopCarryFlag s.cfg.nopCarry s.c := by
    cases s.cfg.nopCarry <;> rfl
  simp only [State.advance, State.setFlags, hcarry]

/-! ### Targets outside the image (R154) -/

/-- A branch completes whatever its target is, and where it is taken it goes to that target. -/
theorem exec_branch {b : Byte} (hi : i = .bz b ∨ i = .bcs b ∨ i = .jmpi b) :
    ∃ p, exec i s = .next (s.advance p) ∧
      ((i = .bz b ∧ s.z = true) ∨ (i = .bcs b ∧ s.c = true) ∨ i = .jmpi b →
        p = branchTarget s.cfg s.pc (s.pc + 2) b) := by
  rcases hi with rfl | rfl | rfl
  · exact ⟨_, exec_bz b, fun htaken => if_pos (by simpa using htaken)⟩
  · exact ⟨_, exec_bcs b, fun htaken => if_pos (by simpa using htaken)⟩
  · exact ⟨_, exec_jmpi b, fun _ => rfl⟩

/-- Settles O41: the target is what `State.advance` writes, and the next fetch checks it. -/
theorem targetOutsideTheImageFaultsNext : Obligations.TargetOutsideTheImageFaultsNext := by
  intro b i s t hi h
  obtain ⟨p, hexec, htarget⟩ := exec_branch (s := s) hi
  obtain rfl : s.advance p = t := by simpa [hexec] using h
  refine ⟨rfl, fun htaken target hT => ?_⟩
  obtain rfl : p = target := (htarget htaken).trans hT.symm
  refine ⟨rfl, fun hout hcan => ?_⟩
  rw [step_of_canStep hcan]
  exact fetch_outside hout

end Sys2Proof.Machine

/-! ## What a step reads: its own bytes of the image, and no opcode value (R47, R89) -/

namespace Sys2Proof.Machine

variable {s t : State} {i : Instr} {o : OpcodeMap} {image : Memory} {f g : Instr → Result}

/-- The state of a run with another opcode map and another image: what `reencode` replaces. -/
def State.withCode (s : State) (o : OpcodeMap) (image : Memory) : State :=
  { s with cfg := { s.cfg with opc := o }, image := image }

@[simp] theorem State.withCode_opc : (s.withCode o image).cfg.opc = o := rfl

@[simp] theorem State.withCode_pc : (s.withCode o image).pc = s.pc := rfl

theorem withReg_withCode {reg : Byte} {k k' : Byte → Result} (h : s.withReg reg k = .next t)
    (hk : ∀ v, k v = .next t → k' v = .next (t.withCode o image)) :
    (s.withCode o image).withReg reg k' = .next (t.withCode o image) := by
  rcases withReg_cases h with ⟨hout, rfl⟩ | ⟨v, hreg, hv, h⟩
  · exact withReg_outside (s := s.withCode o image) hout k'
  · exact (withReg_inside (s := s.withCode o image) hreg hv k').trans (hk v h)

/-- No execute rule reads the opcode map or the image. -/
theorem exec_withCode (h : exec i s = .next t) : exec i (s.withCode o image) = .next (t.withCode o image) := by
  cases i with
  | put _ | get _ | add _ =>
    refine withReg_withCode h fun v hv => ?_
    cases hv
    rfl
  | set _ | addi _ | subi _ | nop | bz _ | bcs _ | jmpi _ | halt =>
    cases h
    rfl

/-- Settles O49: another opcode map with the same image, which the instruction leaves alone. -/
theorem executeNeverReadsTheOpcodeMap : Obligations.ExecuteNeverReadsTheOpcodeMap := by
  intro o i s t h
  calc exec i (s.withCode o s.image)
    _ = .next (t.withCode o s.image) := exec_withCode h
    _ = .next (t.withCode o t.image) := by rw [exec_image h]

/-- A step of an engine that cannot step depends neither on the opcode map nor on the image. -/
theorem step_withCode_of_not_canStep (h : step s = .next t) (hcannot : ¬CanStep s) :
    step (s.withCode o image) = .next (t.withCode o image) := by
  rcases step_cases h with ⟨hended, rfl⟩ | ⟨hnone, r, hr, rfl⟩ | ⟨hnone, hgo, -⟩
  · obtain ⟨r, hr⟩ := Option.isSome_iff_exists.mp hended
    exact step_of_ended (s := t.withCode o image) hr
  · exact step_of_endReason (s := s.withCode o image) hnone hr
  · exact absurd (canStep_iff.mpr ⟨hnone, hgo⟩) hcannot

/-! ### Another image with the same length and the same bytes at `pc` and `pc + 1` (R47) -/

theorem memRead_withCode {a : Int} {k k' : Byte → Result} (hlength : image.length = s.image.length)
    (hread : 0 ≤ a → image.read a.toNat = s.image.read a.toNat) (h : s.memRead a k = .next t)
    (hk : ∀ b, k b = .next t → k' b = .next (t.withCode o image)) :
    (s.withCode o image).memRead a k' = .next (t.withCode o image) := by
  rcases memRead_cases h with ⟨hout, rfl⟩ | ⟨b, h0, hN, hb, h⟩
  · exact memRead_outside (s := s.withCode o image) (hout.imp_right (hlength ▸ ·)) k'
  · exact (memRead_inside (s := s.withCode o image) h0 (hlength ▸ hN) ((hread h0).trans hb) k').trans (hk b h)

theorem fetch_withCode (hlength : image.length = s.image.length)
    (hread : ∀ a : Nat, (a : Int) = s.pc ∨ (a : Int) = s.pc + 1 → image.read a = s.image.read a)
    (h : s.fetch f = .next t) (hf : ∀ i, f i = .next t → g i = .next (t.withCode s.cfg.opc image)) :
    (s.withCode s.cfg.opc image).fetch g = .next (t.withCode s.cfg.opc image) := by
  refine memRead_withCode hlength (fun h0 => hread _ (.inl (Int.toNat_of_nonneg h0))) h fun op hop => ?_
  cases hm : decodeOpcode s.cfg.opc op with
  | none =>
    simp only [hm] at hop
    cases hop
    simp only [State.withCode_opc, hm]
    rfl
  | some m =>
    simp only [hm] at hop
    simp only [State.withCode_opc, State.withCode_pc, hm]
    cases hk : m.operandKind with
    | none =>
      simp only [hk] at hop ⊢
      exact hf _ hop
    | some kind =>
      simp only [hk] at hop ⊢
      exact memRead_withCode hlength (fun h0 => hread _ (.inr (Int.toNat_of_nonneg h0))) hop fun b hb => hf _ hb

/-- Settles O24: the two reads of the fetch find the same bytes, and no execute rule reads the image. -/
theorem stepReadsOnlyItsOwnInstruction : Obligations.StepReadsOnlyItsOwnInstruction := by
  intro s t image hlength hread h
  obtain ⟨hcfg, -, -⟩ := stepKeepsTheInputsOfTheRun s t h
  have hstep : step (s.withCode s.cfg.opc image) = .next (t.withCode s.cfg.opc image) := by
    by_cases hcan : CanStep s
    · have hcan' : CanStep (s.withCode s.cfg.opc image) := hcan
      rw [step_of_canStep hcan] at h
      rw [step_of_canStep hcan']
      exact fetch_withCode hlength hread h fun i hi => exec_withCode hi
    · exact step_withCode_of_not_canStep h hcan
  calc step (s.withCode s.cfg.opc image)
    _ = .next (t.withCode s.cfg.opc image) := hstep
    _ = .next (t.withCode t.cfg.opc image) := by rw [hcfg]

/-! ### The same program in another opcode map (R89) -/

section Reencoded

variable {is : List Instr} {o' : OpcodeMap} {n : Nat}

/-- At the boundary before instruction `k` the engine runs that instruction, whatever the map. -/
theorem step_reencode_of_boundary (ho : o.injective = true) (hcan : CanStep (reencode o is s)) {k : Nat}
    (hpc : s.pc = (((is.take k).map Instr.width).sum : Nat)) (hi : is[k]? = some i) :
    step (reencode o is s) = exec i (reencode o is s) := by
  rw [← length_encodeAll o] at hpc
  exact step_of_encodeAll (s := reencode o is s) ho hi rfl rfl hpc hcan

/-- At the boundary after the last instruction the fetch is outside the image, whatever the map. -/
theorem step_reencode_of_end (hcan : CanStep (reencode o is s)) (hpc : s.pc = ((is.map Instr.width).sum : Nat)) :
    step (reencode o is s) = .next ((reencode o is s).ended (.fault s.pc .pcOutOfBounds)) := by
  have hlength : (reencode o is s).image.length = (is.map Instr.width).sum :=
    (Memory.length_ofBytes _).trans (length_encodeAll o is)
  refine fetchOutsideTheImageFaults (reencode o is s) hcan (.inr ?_)
  rw [hlength]
  exact hpc.ge

/-- A step at a boundary is the same step in another map. -/
theorem step_reencode (ho : o.injective = true) (ho' : o'.injective = true)
    (hboundary : CanStep (reencode o is s) → AtBoundary is s.pc) (h : step (reencode o is s) = .next t) :
    step (reencode o' is s) = .next (reencode o' is t) := by
  by_cases hcan : CanStep (reencode o is s)
  · have hcan' : CanStep (reencode o' is s) := hcan
    obtain ⟨k, hk, hpc⟩ := hboundary hcan
    rcases Nat.lt_or_eq_of_le hk with hlt | rfl
    · have hi : is[k]? = some is[k] := List.getElem?_eq_getElem hlt
      rw [step_reencode_of_boundary ho hcan hpc hi] at h
      rw [step_reencode_of_boundary ho' hcan' hpc hi]
      exact exec_withCode (s := reencode o is s) h
    · rw [List.take_length] at hpc
      rw [step_reencode_of_end hcan hpc] at h
      cases h
      exact step_reencode_of_end hcan' hpc
  · exact step_withCode_of_not_canStep (s := reencode o is s) h hcan

/-- No step changes the map or the image, so what an encoded program reaches is encoded in the same way. -/
theorem reencode_of_step (h : step (reencode o is s) = .next t) : reencode o is t = t := by
  obtain ⟨hcfg, himage, -⟩ := stepKeepsTheInputsOfTheRun _ t h
  have hopc : { t.cfg with opc := o } = t.cfg := by rw [hcfg]; rfl
  calc reencode o is t
    _ = { t with cfg := { t.cfg with opc := o }, image := (reencode o is s).image } := rfl
    _ = { t with cfg := t.cfg, image := t.image } := by rw [hopc, ← himage]

theorem runsTo_reencode (ho : o.injective = true) (ho' : o'.injective = true)
    (hboundary : ∀ j u, j < n → RunsTo j (reencode o is s) u → CanStep u → AtBoundary is u.pc)
    (h : RunsTo n (reencode o is s) t) : RunsTo n (reencode o' is s) (reencode o' is t) := by
  induction n generalizing s with
  | zero =>
    obtain rfl := runsTo_zero.mp h
    exact runsTo_zero.mpr rfl
  | succ n ih =>
    obtain ⟨u, hsu, hut⟩ := runsTo_succ.mp h
    have hu : reencode o is u = u := reencode_of_step hsu
    have hfirst : CanStep (reencode o is s) → AtBoundary is s.pc :=
      hboundary 0 _ n.succ_pos (runsTo_zero.mpr rfl)
    rw [← hu] at hut
    refine runsTo_succ.mpr ⟨_, step_reencode ho ho' hfirst hsu, ih (fun j v hj hv => ?_) hut⟩
    rw [hu] at hv
    exact hboundary (j + 1) v (Nat.succ_lt_succ hj) (runsTo_succ.mpr ⟨u, hsu, hv⟩)

end Reencoded

/-- Settles O50, by induction on the run, each of whose steps is at a boundary or no cycle. -/
theorem runsDoNotDependOnTheOpcodeMap : Obligations.RunsDoNotDependOnTheOpcodeMap :=
  fun _ _ _ _ _ _ ho ho' hboundary h => runsTo_reencode ho ho' hboundary h

end Sys2Proof.Machine

/-! ## The machine against the run loop (spec/30_encoding.md R72, spec/40_cycle.md R109) -/

namespace Sys2Proof.Machine

variable {s t u : State} {cfg : Config} {image : List Byte} {b : Byte} {k : FaultKind} {n budget : Nat}

/-- The machine's answer from `s` is what the datapath makes of the architectural state: the same next state, with the
inputs and the record of the run left alone, or the same fault. -/
def Follows (s : State) (answer : Result) : Except FaultKind Engine → Prop
  | .ok e => ∃ t, answer = .next t ∧ t.engine = e ∧ t.cfg = s.cfg ∧ t.image = s.image ∧
      t.maxCycles = s.maxCycles ∧ t.termination = s.termination
  | .error kind => answer = s.raise kind

/-! ### What each row makes of the architectural state (R72) -/

section Obey

variable {e : Engine} {x : Byte}

/-- The one check at execute: an index beyond the register file stops every row that has a register operand. -/
theorem obey_outside {ctl : Control} (hctl : ctl.operand = some .reg8) (hb : e.regs.length ≤ b.toNat) :
    ctl.obey cfg b e = .error .invalidRegisterIndex := by
  simp only [Control.obey, hctl, if_true, List.getElem?_eq_none hb]

theorem obey_set : (controlOf .set).obey cfg b e = .ok { e with acc := b, pc := e.pc + 2, cycles := e.cycles + 1 } :=
  rfl

theorem obey_put (hx : e.regs[b.toNat]? = some x) : (controlOf .put).obey cfg b e =
    .ok { e with regs := e.regs.set b.toNat e.acc, pc := e.pc + 2, cycles := e.cycles + 1 } := by
  simp only [Control.obey, controlOf, if_true, hx]
  rfl

theorem obey_get (hx : e.regs[b.toNat]? = some x) : (controlOf .get).obey cfg b e =
    .ok { e with acc := x, pc := e.pc + 2, cycles := e.cycles + 1 } := by
  simp only [Control.obey, controlOf, if_true, hx]
  rfl

theorem obey_add (hx : e.regs[b.toNat]? = some x) : (controlOf .add).obey cfg b e =
    .ok { e with acc := e.acc + x, z := decide (e.acc + x = 0), c := decide (256 ≤ e.acc.toNat + x.toNat),
                 pc := e.pc + 2, cycles := e.cycles + 1 } := by
  simp only [Control.obey, controlOf, if_true, hx]
  simp only [← wideSum_low, ← wideSum_carry]
  rfl

theorem obey_addi : (controlOf .addi).obey cfg b e =
    .ok { e with acc := e.acc + b, z := decide (e.acc + b = 0), c := decide (256 ≤ e.acc.toNat + b.toNat),
                 pc := e.pc + 2, cycles := e.cycles + 1 } := by
  simp only [← wideSum_low, ← wideSum_carry]
  rfl

theorem obey_subi : (controlOf .subi).obey cfg b e =
    .ok { e with acc := e.acc - b, z := decide (e.acc - b = 0),
                 c := subiCarryFlag cfg.subiCarry (decide (e.acc.toNat < b.toNat)),
                 pc := e.pc + 2, cycles := e.cycles + 1 } := by
  simp only [← wideDifference_low, ← wideDifference_borrow, Control.obey]
  cases cfg.subiCarry <;> rfl

theorem obey_nop : (controlOf .nop).obey cfg b e =
    .ok { e with z := decide (e.acc = 0), c := nopCarryFlag cfg.nopCarry e.c,
                 pc := e.pc + 1, cycles := e.cycles + 1 } := by
  rw [nopCarryFlag_eq_ite]
  rfl

theorem obey_bz : (controlOf .bz).obey cfg b e =
    .ok { e with pc := if e.z = true then branchTarget cfg e.pc (e.pc + 2) b else e.pc + 2,
                 cycles := e.cycles + 1 } := rfl

theorem obey_bcs : (controlOf .bcs).obey cfg b e =
    .ok { e with pc := if e.c = true then branchTarget cfg e.pc (e.pc + 2) b else e.pc + 2,
                 cycles := e.cycles + 1 } := rfl

theorem obey_jmpi : (controlOf .jmpi).obey cfg b e =
    .ok { e with pc := branchTarget cfg e.pc (e.pc + 2) b, cycles := e.cycles + 1 } := rfl

theorem obey_halt : (controlOf .halt).obey cfg b e =
    .ok { e with halted := true, pc := e.pc + 1, cycles := e.cycles + 1 } := rfl

end Obey

/-! ### Each meaning against its row -/

/-- Beyond the register file the meaning and the row raise the same fault, so only the indices within it matter. -/
theorem follows_of_inside {i : Instr} (hi : i = .put b ∨ i = .get b ∨ i = .add b)
    (hlength : s.regs.length = s.cfg.numRegs)
    (hinside : ∀ x, b.toNat < s.cfg.numRegs → s.regs[b.toNat]? = some x →
      Follows s (exec i s) ((controlOf i.mnemonic).obey s.cfg b s.engine)) :
    Follows s (exec i s) ((controlOf i.mnemonic).obey s.cfg b s.engine) := by
  by_cases hb : b.toNat < s.cfg.numRegs
  · obtain ⟨x, hx⟩ := reg_exists hb hlength
    exact hinside x hb hx
  · have hout : s.cfg.numRegs ≤ b.toNat := Nat.not_lt.mp hb
    have hcontrol : (controlOf i.mnemonic).operand = some .reg8 := by
      rcases hi with rfl | rfl | rfl <;> rfl
    rw [obey_outside hcontrol (hlength.trans_le hout)]
    exact exec_reg_outside hi hout

theorem exec_follows_obey (m : Mnemonic) (b : Byte) (hlength : s.regs.length = s.cfg.numRegs) :
    Follows s (exec (m.instr b) s) ((controlOf m).obey s.cfg b s.engine) := by
  cases m with
  | put =>
    refine follows_of_inside (.inl rfl) hlength fun x hb hx => ?_
    exact obey_put (e := s.engine) hx ▸ ⟨_, exec_put_inside hb hlength, rfl, rfl, rfl, rfl, rfl⟩
  | get =>
    refine follows_of_inside (.inr (.inl rfl)) hlength fun x hb hx => ?_
    exact obey_get (e := s.engine) hx ▸ ⟨_, exec_get_inside hb hx, rfl, rfl, rfl, rfl, rfl⟩
  | add =>
    refine follows_of_inside (.inr (.inr rfl)) hlength fun x hb hx => ?_
    exact obey_add (e := s.engine) hx ▸ ⟨_, exec_add_inside hb hx, rfl, rfl, rfl, rfl, rfl⟩
  | set => exact obey_set ▸ ⟨_, exec_set b, rfl, rfl, rfl, rfl, rfl⟩
  | addi => exact obey_addi ▸ ⟨_, exec_addi b, rfl, rfl, rfl, rfl, rfl⟩
  | subi => exact obey_subi ▸ ⟨_, exec_subi b, rfl, rfl, rfl, rfl, rfl⟩
  | nop => exact obey_nop ▸ ⟨_, exec_nop, rfl, rfl, rfl, rfl, rfl⟩
  | bz => exact obey_bz ▸ ⟨_, exec_bz b, rfl, rfl, rfl, rfl, rfl⟩
  | bcs => exact obey_bcs ▸ ⟨_, exec_bcs b, rfl, rfl, rfl, rfl, rfl⟩
  | jmpi => exact obey_jmpi ▸ ⟨_, exec_jmpi b, rfl, rfl, rfl, rfl, rfl⟩
  | halt => exact obey_halt ▸ ⟨_, exec_halt, rfl, rfl, rfl, rfl, rfl⟩

/-- Settles O54: instruction by instruction, the meaning and its row of the table write the same. -/
theorem meaningsObeyTheControlTable : Obligations.MeaningsObeyTheControlTable := by
  intro m b s hlength
  have hfollows := exec_follows_obey m b hlength
  revert hfollows
  cases (controlOf m).obey s.cfg b s.engine with
  | ok e => exact id
  | error kind => exact id

/-! ### One cycle (R102 to R107) -/

theorem controlOf_width (m : Mnemonic) : (controlOf m).width = m.width := by
  cases m <;> rfl

/-- The loop's `MemRead` fails with the one fault of a read, and only outside the image. -/
theorem imageRead_error {a : Int} (h : imageRead image a = .error k) :
    k = .pcOutOfBounds ∧ (a < 0 ∨ (image.length : Int) ≤ a) := by
  unfold imageRead at h
  split at h
  · cases h
    exact ⟨rfl, .inl ‹_›⟩
  · split at h
    · cases h
    · rename_i hnone
      cases h
      have hlength : image.length ≤ a.toNat := List.getElem?_eq_none_iff.mp hnone
      exact ⟨rfl, .inr (by omega)⟩

theorem imageRead_ok {a : Int} (h : imageRead image a = .ok b) : 0 ≤ a ∧ image[a.toNat]? = some b := by
  unfold imageRead at h
  split at h
  · cases h
  · split at h
    · cases h
      exact ⟨Int.not_lt.mp ‹_›, ‹_›⟩
    · cases h

/-- A read that the loop makes is the machine's `MemRead`, which goes on as the loop does. -/
theorem memRead_follows {a : Int} {f : Byte → Result} {g : Byte → Except FaultKind Engine}
    (hwf : s.image.wf = true) (hk : ∀ b, Follows s (f b) (g b)) :
    Follows s (s.memRead a f) (match imageRead s.image.bytes a with | .error k => .error k | .ok b => g b) := by
  cases hread : imageRead s.image.bytes a with
  | error k =>
    obtain ⟨rfl, hout⟩ := imageRead_error hread
    exact memRead_outside (by rwa [Memory.length_bytes] at hout) f
  | ok b =>
    obtain ⟨h0, hb⟩ := imageRead_ok hread
    rw [memRead_byte hwf h0 hb]
    exact hk b

theorem fetch_follows_cycle (hwf : s.wf = true) :
    Follows s (s.fetch fun i => exec i s) (s.engine.cycle s.cfg s.image.bytes) := by
  obtain ⟨-, himage, hlength, -, -, -⟩ := State.wf_iff.mp hwf
  refine memRead_follows himage fun op => ?_
  cases hm : decodeOpcode s.cfg.opc op with
  | none => rfl
  | some m =>
    dsimp only
    rw [controlOf_width]
    cases hk : m.operandKind with
    | none =>
      rw [if_neg (by rw [Mnemonic.width_of_f1 hk]; decide)]
      exact exec_follows_obey m 0 hlength
    | some kind =>
      rw [if_pos (Mnemonic.width_of_f2 hk)]
      exact memRead_follows himage fun b => exec_follows_obey m b hlength

/-! ### The whole run (R109) -/

/-- Two ended states of one run are the same state. -/
theorem ended_unique {m : Nat} {r r' : Termination} (ht : RunsTo n s t) (hu : RunsTo m s u)
    (hr : t.termination = some r) (hr' : u.termination = some r') : t = u := by
  have htlong : RunsTo (n + m) s t := runsTo_add ht (runsTo_self_of_ended hr m)
  have hulong : RunsTo (m + n) s u := runsTo_add hu (runsTo_self_of_ended hr' n)
  rw [Nat.add_comm] at hulong
  exact runsTo_unique htlong hulong

/-- A step that ends the run fixes what is reported after it and after any number of further steps. -/
theorem runsTo_of_ends {r : Termination} (h : step s = .next (s.ended r)) (n : Nat) :
    ∃ t, RunsTo (n + 1) s t ∧ t.outputs = some (s.engine.finalState, r) :=
  ⟨s.ended r, runsTo_succ.mpr ⟨_, h, runsTo_self_of_ended (State.ended_termination s r) n⟩, rfl⟩

theorem loop_halted {e : Engine} (h : e.halted = true) (budget : Nat) :
    Engine.loop cfg image budget e = (e.finalState, .halted) := by
  cases budget with
  | zero => rw [Engine.loop, if_pos h]
  | succ left => rw [Engine.loop, if_pos h]

theorem loop_zero {e : Engine} (h : e.halted = false) :
    Engine.loop cfg image 0 e = (e.finalState, .cycleLimitReached) := by
  rw [Engine.loop, if_neg (by simp [h])]

theorem loop_succ_error {e : Engine} (h : e.halted = false) (hcycle : e.cycle cfg image = .error k) (left : Nat) :
    Engine.loop cfg image (left + 1) e = (e.finalState, .fault e.pc k) := by
  simp [Engine.loop, h, hcycle]

theorem loop_succ_ok {e e' : Engine} (h : e.halted = false) (hcycle : e.cycle cfg image = .ok e') (left : Nat) :
    Engine.loop cfg image (left + 1) e = Engine.loop cfg image left e' := by
  simp [Engine.loop, h, hcycle]

/-- From any state of a run that goes on, the machine and the loop with the cycles that are left report the same. -/
theorem runsTo_loop (hwf : s.wf = true) (hs : s.termination = none) (hleft : s.maxCycles = s.cycles + budget) :
    ∃ t, RunsTo (budget + 1) s t ∧ t.outputs = some (Engine.loop s.cfg s.image.bytes budget s.engine) := by
  induction budget generalizing s with
  | zero =>
    cases hhalted : s.halted with
    | true =>
      rw [loop_halted hhalted]
      exact runsTo_of_ends (step_of_endReason hs (endReason_halted hhalted)) 0
    | false =>
      rw [loop_zero hhalted]
      exact runsTo_of_ends (step_of_endReason hs (endReason_budget hhalted hleft.le)) 0
  | succ left ih =>
    cases hhalted : s.halted with
    | true =>
      rw [loop_halted hhalted]
      exact runsTo_of_ends (step_of_endReason hs (endReason_halted hhalted)) (left + 1)
    | false =>
      have hcan : CanStep s := ⟨hs, hhalted, by omega⟩
      have hfollows : Follows s (step s) (s.engine.cycle s.cfg s.image.bytes) := by
        rw [step_of_canStep hcan]
        exact fetch_follows_cycle hwf
      cases hcycle : s.engine.cycle s.cfg s.image.bytes with
      | error kind =>
        rw [hcycle] at hfollows
        rw [loop_succ_error hhalted hcycle]
        exact runsTo_of_ends hfollows (left + 1)
      | ok e =>
        rw [hcycle] at hfollows
        obtain ⟨u, hstep, rfl, hcfg, himage, hmax, hterm⟩ := hfollows
        have hu : u.termination = none := hterm.trans hs
        obtain ⟨-, i, hcompletes⟩ := completes_of_goes_on hstep hu
        have hleft' : u.maxCycles = u.cycles + left := by rw [hmax, hcompletes.cycles]; omega
        obtain ⟨t, hrun, hout⟩ := ih (stepKeepsTheInvariant s u hwf hstep) hu hleft'
        rw [hcfg, himage] at hout
        rw [loop_succ_ok hhalted hcycle]
        exact ⟨t, runsTo_succ.mpr ⟨u, hstep, hrun⟩, hout⟩

/-- Settles O53: a launch has its whole budget left. -/
theorem machineRefinesTheRunLoop : Obligations.MachineRefinesTheRunLoop := by
  intro cfg image maxCycles hcfg
  have hrun := runsTo_loop (budget := maxCycles) (launch_wf hcfg image maxCycles) rfl (Nat.zero_add maxCycles).symm
  rwa [State.launch_image, Memory.bytes_ofBytes] at hrun

theorem termination_of_outputs {report : FinalState × Termination} (h : t.outputs = some report) :
    t.termination = some report.2 := by
  obtain ⟨r, hr, rfl⟩ := Option.map_eq_some_iff.mp h
  exact hr

/-- A run keeps the invariant and its budget. -/
theorem runsTo_wf (hs : s.wf = true) (h : RunsTo n s t) : t.wf = true ∧ t.maxCycles = s.maxCycles := by
  refine runsTo_induction (P := fun u => u.wf = true ∧ u.maxCycles = s.maxCycles) ?_ ⟨hs, rfl⟩ h
  rintro u v ⟨hu, hmax⟩ huv
  obtain ⟨-, -, hmax'⟩ := stepKeepsTheInputsOfTheRun u v huv
  exact ⟨stepKeepsTheInvariant u v hu huv, hmax'.trans hmax⟩

/-- Settles O52: the machine ends where the loop, which runs out of budget by recursion, does; from there no step does
anything, and the invariant bounds CYCLES. -/
theorem everyRunEndsWithinItsBudget : Obligations.EveryRunEndsWithinItsBudget := by
  intro cfg image maxCycles hcfg
  obtain ⟨t, hrun, hout⟩ := machineRefinesTheRunLoop cfg image maxCycles hcfg
  have hrecord := termination_of_outputs hout
  obtain ⟨hwf, hmax⟩ := runsTo_wf (launch_wf hcfg image maxCycles) hrun
  obtain ⟨-, -, -, hcycles, -, -⟩ := State.wf_iff.mp hwf
  refine ⟨t, Option.isSome_of_eq_some hrecord, hcycles.trans_eq hmax, fun n hn => ?_⟩
  obtain ⟨extra, rfl⟩ := Nat.exists_eq_add_of_le hn
  exact runsTo_add hrun (runsTo_self_of_ended hrecord extra)

/-- Settles O56: a run that ends ends in one state only, and the run function reports that state's record. -/
theorem safeRunsAreThoseThatReportNoFault : Obligations.SafeRunsAreThoseThatReportNoFault := by
  intro cfg image maxCycles hcfg
  obtain ⟨t, hrun, hout⟩ := machineRefinesTheRunLoop cfg image maxCycles hcfg
  have hrecord := termination_of_outputs hout
  constructor
  · rintro ⟨u, reason, ⟨n, hn⟩, hreason, hnormal⟩
    obtain rfl : t = u := ended_unique hrun hn hrecord hreason
    rw [hrecord] at hreason
    cases hreason
    exact hnormal
  · exact fun hnormal => ⟨t, _, ⟨_, hrun⟩, hrecord, hnormal⟩

end Sys2Proof.Machine

/-! ## The assembler and the engine (spec/30_encoding.md section 6) -/

namespace Sys2Proof.Machine

variable {cfg : Config} {malformed : AsmErrorKind} {labels labels' : Labels} {lines : List LineBody}
  {items : List Item} {item : Item} {is : List Instr} {i : Instr} {m : Mnemonic} {b : Byte} {n p : Nat}

/-! ### Offsets (R80, R83) -/

/-- An offset byte is the offset modulo 256, which reads back as the offset within -128..127. -/
theorem sext8_of_offsetByte {offset : Int} (h : offsetByte offset = some b) : sext8 b = offset := by
  unfold offsetByte at h
  split at h
  · cases h
  · cases h
    have hbyte : (BitVec.ofInt 8 (offset % 256)).toNat = (offset % 256).toNat := by
      rw [BitVec.toNat_ofInt]
      omega
    rw [sext8, hbyte]
    split <;> omega

theorem offsetByte_eq_none_iff (offset : Int) : offsetByte offset = none ↔ offset < -128 ∨ 127 < offset := by
  unfold offsetByte
  split <;> simp_all

/-- Settles O57: the assembler subtracts the base that the engine adds. -/
theorem assembledOffsetReachesItsTarget : Obligations.AssembledOffsetReachesItsTarget := by
  refine fun cfg p width target => ⟨fun b h => ?_, offsetByte_eq_none_iff _⟩
  rw [branchTarget, sext8_of_offsetByte h]
  omega

/-! ### The instructions of pass 2 (R78, R80, R81) -/

/-- A register operand that assembles is below `NUM_REGS`, and fits its byte. -/
theorem readOperand_reg8 {w : Text} {p width : Nat}
    (h : readOperand cfg malformed labels p width .reg8 w = .ok b) : b.toNat < cfg.numRegs := by
  simp only [readOperand] at h
  split at h
  · split at h
    · cases h
    · split at h
      · rename_i n _ hn
        cases h
        obtain ⟨hreg, hbyte⟩ := hn
        rwa [BitVec.toNat_ofNat, Nat.mod_eq_of_lt (Nat.lt_succ_of_le hbyte)]
      · cases h
  · cases h

/-- What an instruction line becomes: the mnemonic without an operand byte, or with the byte its one word stands for. -/
theorem readInstr_cases {ops : List Text} (h : readInstr cfg malformed labels p m ops = .ok i) :
    (m.operandKind = none ∧ i = m.instr 0) ∨
    ∃ kind w b, m.operandKind = some kind ∧ i = m.instr b ∧
      readOperand cfg malformed labels p m.width kind w = .ok b := by
  unfold readInstr at h
  split at h
  · cases h
    exact .inl ⟨‹_›, rfl⟩
  · split at h
    · cases h
      exact .inr ⟨_, _, _, ‹_›, rfl, ‹_›⟩
    · cases h
  · cases h

theorem readInstr_mnemonic {ops : List Text} (h : readInstr cfg malformed labels p m ops = .ok i) :
    i.mnemonic = m := by
  rcases readInstr_cases h with ⟨-, rfl⟩ | ⟨kind, w, b, -, rfl, -⟩
  · exact m.instr_mnemonic 0
  · exact m.instr_mnemonic b

theorem readInstr_wellFormed {ops : List Text} (h : readInstr cfg malformed labels p m ops = .ok i) :
    i.wellFormed cfg.numRegs = true := by
  rcases readInstr_cases h with ⟨hf1, rfl⟩ | ⟨kind, w, b, hf2, rfl, hb⟩
  · cases m with
    | nop | halt => rfl
    | set | put | get | add | addi | subi | bz | bcs | jmpi => cases hf1
  · cases m with
    | put | get | add =>
      cases hf2
      exact decide_eq_true (readOperand_reg8 hb)
    | set | addi | subi | nop | bz | bcs | jmpi | halt => rfl

/-- Pass 2, item by item. -/
theorem passTwo_cons (h : passTwo cfg malformed labels (item :: items) = .ok is) :
    ∃ i rest, readInstr cfg malformed labels item.addr item.mnemonic item.operands = .ok i ∧
      passTwo cfg malformed labels items = .ok rest ∧ is = i :: rest := by
  unfold passTwo at h
  split at h
  · cases h
  · split at h
    · cases h
    · cases h
      exact ⟨_, _, ‹_›, ‹_›, rfl⟩

/-- Pass 2 makes each item the instruction that its line stands for, in order. -/
theorem passTwo_forall₂ (h : passTwo cfg malformed labels items = .ok is) :
    List.Forall₂ (fun item i => readInstr cfg malformed labels item.addr item.mnemonic item.operands = .ok i)
      items is := by
  induction items generalizing is with
  | nil =>
    cases h
    exact .nil
  | cons item items ih =>
    obtain ⟨i, rest, hi, hrest, rfl⟩ := passTwo_cons h
    exact .cons hi (ih hrest)

theorem passTwo_wellFormed (h : passTwo cfg malformed labels items = .ok is) :
    ∀ i ∈ is, i.wellFormed cfg.numRegs = true := by
  replace h := passTwo_forall₂ h
  induction h with
  | nil => exact List.forall_mem_nil _
  | cons hi _ ih => exact List.forall_mem_cons.mpr ⟨readInstr_wellFormed hi, ih⟩

theorem passTwo_mnemonics (h : passTwo cfg malformed labels items = .ok is) :
    is.map Instr.mnemonic = items.map Item.mnemonic := by
  replace h := passTwo_forall₂ h
  induction h with
  | nil => rfl
  | cons hi _ ih => rw [List.map_cons, List.map_cons, readInstr_mnemonic hi, ih]

theorem assemble_ok {source : Text} {bytes : List Byte} (h : assemble cfg malformed source = .ok bytes) :
    ∃ is, assembleInstrs cfg malformed source = .ok is ∧ bytes = encodeAll cfg.opc is := by
  unfold assemble at h
  split at h
  · cases h
  · cases h
    exact ⟨_, ‹_›, rfl⟩

theorem assembleInstrs_ok {source : Text} (h : assembleInstrs cfg malformed source = .ok is) :
    ∃ items labels, passTwo cfg malformed labels items = .ok is := by
  unfold assembleInstrs at h
  split at h
  · cases h
  · exact ⟨_, _, h⟩

/-- Settles O58: whatever pass 1 made of the source, pass 2 lets only register operands below `NUM_REGS` through. -/
theorem assembledProgramsAreWellFormed : Obligations.AssembledProgramsAreWellFormed := by
  intro cfg malformed source bytes h
  obtain ⟨is, his, hbytes⟩ := assemble_ok h
  obtain ⟨items, labels, htwo⟩ := assembleInstrs_ok his
  exact ⟨is, his, hbytes, passTwo_wellFormed htwo⟩

/-! ### What pass 1 does, line by line (R77, R79) -/

/-- The addresses that the first `j` items take up, in bytes. -/
def itemsWidth (items : List Item) : Nat := (items.map fun item => item.mnemonic.width).sum

@[simp] theorem itemsWidth_nil : itemsWidth [] = 0 := rfl

@[simp] theorem itemsWidth_cons : itemsWidth (item :: items) = item.mnemonic.width + itemsWidth items := List.sum_cons

/-- Pass 1 as a relation between what it starts from and what it answers: one rule per kind of line that it reads without
an error. -/
inductive PassOneReads : Nat → Nat → Labels → List LineBody → List Item → Labels → Prop where
  | done {n p : Nat} {labels : Labels} : PassOneReads n p labels [] [] labels
  | blank {n p : Nat} {labels labels' : Labels} {lines : List LineBody} {items : List Item}
      (rest : PassOneReads (n + 1) p labels lines items labels') :
      PassOneReads n p labels (.blank :: lines) items labels'
  | label {n p : Nat} {labels labels' : Labels} {lines : List LineBody} {items : List Item} {name : Text}
      (hnew : labels.lookup name = none)
      (rest : PassOneReads (n + 1) p ((name, p) :: labels) lines items labels') :
      PassOneReads n p labels (.label name :: lines) items labels'
  | instr {n p : Nat} {labels labels' : Labels} {lines : List LineBody} {items : List Item} {word : Text}
      {ops : List Text} {m : Mnemonic} (hword : readMnemonic word = some m)
      (rest : PassOneReads (n + 1) (p + m.width) labels lines items labels') :
      PassOneReads n p labels (.instr word ops :: lines) (⟨n, p, m, ops⟩ :: items) labels'

theorem passOneReads_of_passOne (h : passOne n p labels lines = .ok (items, labels')) :
    PassOneReads n p labels lines items labels' := by
  induction lines generalizing n p labels items with
  | nil =>
    cases h
    exact .done
  | cons line lines ih =>
    cases line with
    | blank => exact .blank (ih h)
    | label name =>
      simp only [passOne] at h
      split at h
      · cases h
      · exact .label (Option.not_isSome_iff_eq_none.mp ‹_›) (ih h)
    | instr word ops =>
      simp only [passOne] at h
      split at h
      · cases h
      · split at h
        · cases h
        · cases h
          exact .instr ‹_› (ih ‹_›)

namespace PassOneReads

variable {k j : Nat}

/-- The running PC at an item is where the items before it end. -/
theorem item_addr (h : PassOneReads n p labels lines items labels') (hj : items[j]? = some item) :
    item.addr = p + itemsWidth (items.take j) := by
  induction h generalizing j with
  | done => cases hj
  | blank _ ih => exact ih hj
  | label _ _ ih => exact ih hj
  | instr hword _ ih =>
    cases j with
    | zero =>
      cases hj
      rfl
    | succ j =>
      rw [ih hj, List.take_succ_cons, itemsWidth_cons, Nat.add_assoc]

theorem item_of_line (h : PassOneReads n p labels lines items labels') {word : Text} {ops : List Text}
    (hk : lines[k]? = some (.instr word ops)) :
    ∃ item, items[instrsBefore lines k]? = some item ∧ item.line = n + k ∧
      readMnemonic word = some item.mnemonic ∧ item.operands = ops := by
  induction h generalizing k with
  | done => cases hk
  | @blank n _ _ _ _ _ _ ih =>
    cases k with
    | zero => cases hk
    | succ k =>
      rw [instrsBefore_blank, Nat.add_left_comm n k 1, Nat.add_comm k (n + 1)]
      exact ih hk
  | @label n _ _ _ _ _ _ _ _ ih =>
    cases k with
    | zero => cases hk
    | succ k =>
      rw [instrsBefore_label, Nat.add_left_comm n k 1, Nat.add_comm k (n + 1)]
      exact ih hk
  | @instr n _ _ _ _ _ _ _ _ hword _ ih =>
    cases k with
    | zero =>
      cases hk
      exact ⟨_, rfl, rfl, hword, rfl⟩
    | succ k =>
      rw [instrsBefore_instr, Nat.add_left_comm n k 1, Nat.add_comm k (n + 1)]
      exact ih hk

/-- A label once bound stays bound to the same address. -/
theorem lookup_kept (h : PassOneReads n p labels lines items labels') {name : Text} {addr : Nat}
    (hname : labels.lookup name = some addr) : labels'.lookup name = some addr := by
  induction h with
  | done => exact hname
  | blank _ ih => exact ih hname
  | @label _ _ _ _ _ _ name' hnew _ ih =>
    have hne : (name == name') = false := by
      rw [beq_eq_false_iff_ne]
      rintro rfl
      cases hnew.symm.trans hname
    refine ih ?_
    rw [List.lookup_cons, hne]
    exact hname
  | instr _ _ ih => exact ih hname

theorem lookup_of_line (h : PassOneReads n p labels lines items labels') {name : Text}
    (hk : lines[k]? = some (.label name)) :
    labels'.lookup name = some (p + itemsWidth (items.take (instrsBefore lines k))) := by
  induction h generalizing k with
  | done => cases hk
  | blank _ ih =>
    cases k with
    | zero => cases hk
    | succ k => rw [ih hk, instrsBefore_blank]
  | label hnew rest ih =>
    cases k with
    | zero =>
      cases hk
      exact rest.lookup_kept List.lookup_cons_self
    | succ k => rw [ih hk, instrsBefore_label]
  | instr _ _ ih =>
    cases k with
    | zero => cases hk
    | succ k => rw [ih hk, instrsBefore_instr, List.take_succ_cons, itemsWidth_cons, Nat.add_assoc]

/-- Every label that pass 1 binds is bound to where some number of its items end. -/
theorem label_addr (h : PassOneReads n p labels lines items labels') {name : Text} {addr : Nat}
    (hmem : (name, addr) ∈ labels') :
    (name, addr) ∈ labels ∨ ∃ j ≤ items.length, addr = p + itemsWidth (items.take j) := by
  induction h with
  | done => exact .inl hmem
  | blank _ ih => exact ih hmem
  | label _ _ ih =>
    rcases ih hmem with hin | hat
    · rcases List.mem_cons.mp hin with heq | hin
      · cases heq
        exact .inr ⟨0, Nat.zero_le _, rfl⟩
      · exact .inl hin
    · exact .inr hat
  | instr _ _ ih =>
    rcases ih hmem with hin | ⟨j, hj, rfl⟩
    · exact .inl hin
    · refine .inr ⟨j + 1, Nat.succ_le_succ hj, ?_⟩
      rw [List.take_succ_cons, itemsWidth_cons, Nat.add_assoc]

end PassOneReads

/-! ### Where pass 2 emits, and where the engine fetches (R83) -/

/-- Instructions with the mnemonics of the items take up the bytes that pass 1 counted for them. -/
theorem itemsWidth_take (h : is.map Instr.mnemonic = items.map Item.mnemonic) (j : Nat) :
    itemsWidth (items.take j) = ((is.take j).map Instr.width).sum := by
  have hwidths : is.map Instr.width = items.map fun item => item.mnemonic.width := by
    have hmapped := congrArg (List.map Mnemonic.width) h
    rwa [List.map_map, List.map_map] at hmapped
  rw [itemsWidth, List.map_take, List.map_take, hwidths]

/-- Settles O59: pass 1 counts the widths of mnemonics and pass 2 keeps the mnemonics, so both passes and the fetch have
the instructions at the same addresses. -/
theorem assemblerAddressesAreFetchAddresses : Obligations.AssemblerAddressesAreFetchAddresses := by
  intro cfg malformed lines items labels is hone htwo
  have hreads : PassOneReads 1 0 [] lines items labels := passOneReads_of_passOne hone
  have hmnemonics : is.map Instr.mnemonic = items.map Item.mnemonic := passTwo_mnemonics htwo
  have hcount : is.length = items.length := by simpa using congrArg List.length hmnemonics
  have hwidth (j : Nat) : 0 + itemsWidth (items.take j) = (encodeAll cfg.opc (is.take j)).length := by
    rw [Nat.zero_add, itemsWidth_take hmnemonics, length_encodeAll]
  have haddr {j : Nat} {item : Item} (hj : items[j]? = some item) :
      item.addr = (encodeAll cfg.opc (is.take j)).length := (hreads.item_addr hj).trans (hwidth j)
  refine ⟨hmnemonics, fun j item => haddr, fun k word ops hk => ?line, fun k name hk => ?label,
    fun name addr hmem => ?boundary, fun ho j item i hj hi => ⟨?decoded, fun s hcfg himage hpc => ?fetched⟩⟩
  case line =>
    rw [Nat.add_comm k 1]
    exact hreads.item_of_line hk
  case label => rw [hreads.lookup_of_line hk, hwidth]
  case boundary =>
    rcases hreads.label_addr hmem with hnil | ⟨j, hj, rfl⟩
    · cases hnil
    · exact ⟨j, hcount ▸ hj, by rw [hwidth, length_encodeAll]⟩
  case decoded =>
    rw [haddr hj]
    exact decode_encodeAll_drop ho hi
  case fetched => exact step_of_encodeAll ho hi (congrArg Config.opc hcfg) himage (by rw [hpc, haddr hj])

end Sys2Proof.Machine
